-- ==== Sys2Proof/Word.lean ====
section
/-! DEFINITION. The two value types of the hardware (R5, R7): a Word is an unsigned 32-bit value, a Byte an unsigned
8-bit value; no value of this hardware is signed. -/

namespace Sys2Proof

/-- A Word of R7: an unsigned integer in [0, 2^32). -/
abbrev Word := BitVec 32

/-- A Byte of R7: an unsigned integer in [0, 256). -/
abbrev Byte := BitVec 8

end Sys2Proof
end

