-- ==== Sys2Proof/Config.lean ====
section
/-! DEFINITION. What is fixed for the machine and what the spec leaves free. The free values are constants with no body:
nothing can evaluate one or prove a value of it, so a claim that is true holds for every value of it (R9, R38, R231,
93_implementation_defined.md U1 and U3). DESIGN CHOICE, unsafe only between two engines reset equally often: log entries 1
and 2. -/

namespace Sys2Proof.Config

/-- Address of CTRL (R32, R56). -/
def ctrlAddr : BitVec 8 := 0x00

/-- Address of STATUS (R33, R56). -/
def statusAddr : BitVec 8 := 0x04

/-- First byte address of the block buffer BLK (R35, R56). -/
def blkBase : Nat := 0x40

/-- First byte address of the digest buffer DIG (R35, R56). -/
def digBase : Nat := 0x80

/-- First byte address after the digest buffer; from here on the window is reserved (R56). -/
def digEnd : Nat := 0xA0

/-- What `H[i]` holds after the `epoch`-th reset: unspecified (R20, R38, R231). -/
opaque resetH (epoch : Nat) (i : Fin 8) : Word

/-- What `ws[i]` holds after the `epoch`-th reset: unspecified (R21, R38, R231). -/
opaque resetWs (epoch : Nat) (i : Fin 8) : Word

/-- What `W[t]` holds after the `epoch`-th reset: unspecified (R24, R38, R231). -/
opaque resetW (epoch : Nat) (t : Fin 64) : Word

/-- What the buffer byte at address `addr` holds when nothing has written it since the `epoch`-th reset: unspecified
(R35, R38, R231). -/
opaque unwrittenByte (epoch addr : Nat) : Byte

end Sys2Proof.Config
end

