-- ==== Sys2Proof/Syntax.lean ====
section
/-! DEFINITION. The instructions: one constructor per mnemonic of spec/opcode_table.json (the table gives EXP two rows of
one mnemonic and one meaning, R77). Seven host transactions (format X, R76) and seven micro-operations (format U, R77). -/

namespace Sys2Proof

/-- The fourteen instructions of R76 and R77. The WDATA bits of a read are not decoded (R70, R80), so `rddig` and
`rdstat` carry none. -/
inductive Instr where
  /-- Host transaction: write 0 to CTRL (R150). -/
  | nop
  /-- Host transaction: write 1 to CTRL (R151). -/
  | init
  /-- Host transaction: write 2 to CTRL (R152). -/
  | compress
  /-- Host transaction: write 3 to CTRL (R153). -/
  | digest
  /-- Host transaction: write `v` to word `i` of the block buffer (R154). -/
  | wrblk (i : Fin 16) (v : Word)
  /-- Host transaction: read word `j` of the digest buffer (R155). -/
  | rddig (j : Fin 8)
  /-- Host transaction: read STATUS (R156). -/
  | rdstat
  /-- Micro-operation: load schedule word `t` from the block buffer (R121). -/
  | ldw (t : Fin 16)
  /-- Micro-operation: expand schedule word `t`; well formed for `t` in 16..63 (R122). -/
  | exp (t : Fin 64)
  /-- Micro-operation: load the working state from the hash state (R132). -/
  | wsinit
  /-- Micro-operation: compression round `t` (R133). -/
  | rnd (t : Fin 64)
  /-- Micro-operation: accumulate the block result into the hash state (R134). -/
  | acc
  /-- Micro-operation: serialise the hash state into the digest buffer (R147). -/
  | ser
  /-- Micro-operation: initialise the hash state (R145). -/
  | hinit
deriving DecidableEq, Repr

/-- The host transactions among the instructions (format X, R76). -/
def Instr.isTransaction : Instr → Bool
  | .nop | .init | .compress | .digest | .wrblk _ _ | .rddig _ | .rdstat => true
  | .ldw _ | .exp _ | .wsinit | .rnd _ | .acc | .ser | .hinit => false

end Sys2Proof
end

