-- ==== Sys2Proof/WellFormed.lean ====
section
/-! DEFINITION. Which terms of `Instr` are instructions. The types of the operands carry every bound but one: `EXP t`
exists for t in 16..63 only (R77, R122). -/

namespace Sys2Proof

/-- `i` is an instruction of R76 or R77. -/
def Instr.wf : Instr → Bool
  | .exp t => 16 ≤ t.val
  | .nop | .init | .compress | .digest | .wrblk _ _ | .rddig _ | .rdstat
  | .ldw _ | .wsinit | .rnd _ | .acc | .ser | .hinit => true

end Sys2Proof
end

