-- ==== Sys2Proof/Decode.lean ====
section
/-! DEFINITION. The two formats of 30_encoding.md: the fields (R70, R72), the decoder of each (R76 to R80), total on every
word, an illegal word rejected under the class R78 gives it, and the encoder. -/

namespace Sys2Proof

/-! ## Format X, the 41-bit host transaction word (R70) -/

/-- WR, bit 40: true for a write. -/
def X.wr (w : BitVec 41) : Bool := w.getLsbD 40

/-- ADDR, bits 39:32. -/
def X.addr (w : BitVec 41) : BitVec 8 := w.extractLsb' 32 8

/-- WDATA, bits 31:0. -/
def X.wdata (w : BitVec 41) : Word := w.extractLsb' 0 32

/-- The word WR·2^40 + ADDR·2^32 + WDATA (R70). -/
def X.mk (wr : Bool) (addr : BitVec 8) (wdata : Word) : BitVec 41 := BitVec.ofBool wr ++ addr ++ wdata

/-- The classes (a) to (g) of R78, in its order. -/
inductive IllegalClass where
  /-- (a) ADDR[1:0] is not 0. -/
  | misaligned
  /-- (b) ADDR in 0x08..0x3C or 0xA0..0xFC. -/
  | reserved
  /-- (c) read of CTRL. -/
  | readCtrl
  /-- (d) write of STATUS. -/
  | writeStatus
  /-- (e) read of the block buffer. -/
  | readBlock
  /-- (f) write of the digest buffer. -/
  | writeDigest
  /-- (g) write to CTRL of a reserved command code. -/
  | reservedCommand
deriving DecidableEq, Repr

/-- What a transaction word decodes to: one of the seven transactions, or a class of R78. -/
inductive XDecoded where
  | legal (i : Instr)
  | illegal (c : IllegalClass)
deriving DecidableEq, Repr

/-- The command code is the whole of WDATA (R32, R73); codes from 4 on are class (g). -/
def decodeCommand (code : Word) : XDecoded :=
  if code = 0 then .legal .nop
  else if code = 1 then .legal .init
  else if code = 2 then .legal .compress
  else if code = 3 then .legal .digest
  else .illegal .reservedCommand

/-- The reserved ranges of R56, an aligned address assumed. -/
def X.reservedAddr (a : BitVec 8) : Bool := (0x08 ≤ a && a ≤ 0x3F) || 0xA0 ≤ a

/-- The decoder of format X: the tests of R78 in its order, and the rows of R76. -/
def decodeX (w : BitVec 41) : XDecoded :=
  let a := X.addr w
  if a.extractLsb' 0 2 ≠ 0 then .illegal .misaligned
  else if X.reservedAddr a then .illegal .reserved
  else if a = Config.ctrlAddr then
    if X.wr w then decodeCommand (X.wdata w) else .illegal .readCtrl
  else if a = Config.statusAddr then
    if X.wr w then .illegal .writeStatus else .legal .rdstat
  else if a < 0x80 then
    if X.wr w then .legal (.wrblk (a.extractLsb' 2 4).toFin (X.wdata w)) else .illegal .readBlock
  else
    if X.wr w then .illegal .writeDigest else .legal (.rddig (a.extractLsb' 2 3).toFin)

/-! ## Format U, the 9-bit control word, which is the micro-PC (R27, R72) -/

/-- The phase codes of R27 and R72. -/
def Phase.idle : BitVec 3 := 0
def Phase.sched : BitVec 3 := 1
def Phase.wsinit : BitVec 3 := 2
def Phase.rnd : BitVec 3 := 3
def Phase.acc : BitVec 3 := 4
def Phase.ser : BitVec 3 := 5
def Phase.hinit : BitVec 3 := 6

/-- ph, bits 8:6. -/
def U.ph (u : BitVec 9) : BitVec 3 := u.extractLsb' 6 3

/-- t, bits 5:0. -/
def U.t (u : BitVec 9) : BitVec 6 := u.extractLsb' 0 6

/-- The control word ph·64 + t (R72). -/
def U.mk (ph : BitVec 3) (t : BitVec 6) : BitVec 9 := ph ++ t

/-- What a control word selects: a micro-operation, no operation (IDLE, U = 0, R77), or nothing, the word being one that
no rule produces (R79). -/
inductive UDecoded where
  | op (i : Instr)
  | idle
  | unreachable
deriving DecidableEq, Repr

/-- The phases without an index: the operation for t = 0, unreachable for any other t (R79). -/
def decodeIndexless (t : BitVec 6) (d : UDecoded) : UDecoded := if t = 0 then d else .unreachable

/-- The decoder of format U: the rows of R77, LDW tested before EXP in phase 1. -/
def decodeU (u : BitVec 9) : UDecoded :=
  let ph := U.ph u
  let t := U.t u
  if ph = Phase.idle then decodeIndexless t .idle
  else if ph = Phase.sched then
    if t.extractLsb' 4 2 = 0 then .op (.ldw (t.extractLsb' 0 4).toFin) else .op (.exp t.toFin)
  else if ph = Phase.wsinit then decodeIndexless t (.op .wsinit)
  else if ph = Phase.rnd then .op (.rnd t.toFin)
  else if ph = Phase.acc then decodeIndexless t (.op .acc)
  else if ph = Phase.ser then decodeIndexless t (.op .ser)
  else if ph = Phase.hinit then decodeIndexless t (.op .hinit)
  else .unreachable

/-! ## The encoder -/

/-- A word of one of the two formats (R70, R72). -/
inductive Encoded where
  | x (w : BitVec 41)
  | u (w : BitVec 9)
deriving DecidableEq, Repr

/-- A write of `code` to CTRL (R150 to R153). -/
def encodeCommand (code : Word) : Encoded := .x (X.mk true Config.ctrlAddr code)

/-- A control word of phase `ph` and index `t` (R77). -/
def encodeMicro (ph : BitVec 3) (t : BitVec 6) : Encoded := .u (U.mk ph t)

/-- The word of an instruction, canonical (WDATA = 0) for a read (R70, R76, R77). -/
def encode : Instr → Encoded
  | .nop => encodeCommand 0
  | .init => encodeCommand 1
  | .compress => encodeCommand 2
  | .digest => encodeCommand 3
  | .wrblk i v => .x (X.mk true (0b01#2 ++ (BitVec.ofFin i : BitVec 4) ++ 0b00#2) v)
  | .rddig j => .x (X.mk false (0b100#3 ++ (BitVec.ofFin j : BitVec 3) ++ 0b00#2) 0)
  | .rdstat => .x (X.mk false Config.statusAddr 0)
  | .ldw t => encodeMicro Phase.sched (0b00#2 ++ (BitVec.ofFin t : BitVec 4))
  | .exp t => encodeMicro Phase.sched (BitVec.ofFin t)
  | .wsinit => encodeMicro Phase.wsinit 0
  | .rnd t => encodeMicro Phase.rnd (BitVec.ofFin t)
  | .acc => encodeMicro Phase.acc 0
  | .ser => encodeMicro Phase.ser 0
  | .hinit => encodeMicro Phase.hinit 0

/-- The instruction a word of either format stands for, none where there is none. -/
def decode : Encoded → Option Instr
  | .x w => match decodeX w with
    | .legal i => some i
    | .illegal _ => none
  | .u w => match decodeU w with
    | .op i => some i
    | .idle => none
    | .unreachable => none

/-! ## The opcode table (R76, R77) -/

/-- A row of the opcode map of format X: a word selects it when (word and mask) = value. -/
structure XRow where
  mnemonic : String
  mask : BitVec 41
  value : BitVec 41
deriving DecidableEq, Repr

/-- A row of the opcode map of format U. -/
structure URow where
  mnemonic : String
  mask : BitVec 9
  value : BitVec 9
deriving DecidableEq, Repr

/-- The seven rows of R76. -/
def xTable : List XRow :=
  [ ⟨"NOP", 0x1FFFFFFFFFF, 0x10000000000⟩,
    ⟨"INIT", 0x1FFFFFFFFFF, 0x10000000001⟩,
    ⟨"COMPRESS", 0x1FFFFFFFFFF, 0x10000000002⟩,
    ⟨"DIGEST", 0x1FFFFFFFFFF, 0x10000000003⟩,
    ⟨"WRBLK", 0x1C300000000, 0x14000000000⟩,
    ⟨"RDDIG", 0x1E300000000, 0x08000000000⟩,
    ⟨"RDSTAT", 0x1FF00000000, 0x00400000000⟩ ]

/-- The rows of R77, EXP in the two rows of spec/opcode_table.json. -/
def uTable : List URow :=
  [ ⟨"LDW", 0x1F0, 0x040⟩,
    ⟨"EXP", 0x1F0, 0x050⟩,
    ⟨"EXP", 0x1E0, 0x060⟩,
    ⟨"WSINIT", 0x1FF, 0x080⟩,
    ⟨"RND", 0x1C0, 0x0C0⟩,
    ⟨"ACC", 0x1FF, 0x100⟩,
    ⟨"SER", 0x1FF, 0x140⟩,
    ⟨"HINIT", 0x1FF, 0x180⟩ ]

/-- The word selects the row (R76). -/
def XRow.selects (r : XRow) (w : BitVec 41) : Bool := w &&& r.mask = r.value

/-- The control word selects the row (R77). -/
def URow.selects (r : URow) (u : BitVec 9) : Bool := u &&& r.mask = r.value

/-- The mnemonic of an instruction in the opcode table. -/
def Instr.mnemonic : Instr → String
  | .nop => "NOP"
  | .init => "INIT"
  | .compress => "COMPRESS"
  | .digest => "DIGEST"
  | .wrblk _ _ => "WRBLK"
  | .rddig _ => "RDDIG"
  | .rdstat => "RDSTAT"
  | .ldw _ => "LDW"
  | .exp _ => "EXP"
  | .wsinit => "WSINIT"
  | .rnd _ => "RND"
  | .acc => "ACC"
  | .ser => "SER"
  | .hinit => "HINIT"

/-! ## The table's words -/

/-- Whether a table row of `nbits` bits is a control word (9 bits, format U); a wider one is a transaction word (41 bits,
format X). -/
def isControlWidth (nbits : Nat) : Bool := nbits ≤ 16

/-- What the decoder reads from an instruction of the opcode table whose bits, numbered as the table numbers them, are
`w`: one control word or one transaction word; a number wider than the format is no word of it (R81; DESIGN CHOICE,
safe: log entry 15). -/
def decodeTableWord (nbits w : Nat) : Option Instr :=
  if isControlWidth nbits then
    if w < 2 ^ 9 then decode (.u (BitVec.ofNat 9 w)) else none
  else
    if w < 2 ^ 41 then decode (.x (BitVec.ofNat 41 w)) else none

end Sys2Proof
end

