-- ==== Sys2Proof/Machine/State.lean ====
section
/-! DEFINITION. The machine's state (10_state.md), what can stop it, and the state after reset (R38, R231). -/

namespace Sys2Proof.Machine

/-- The engine's addressable storage: the block buffer at 0x40..0x7F and the digest buffer at 0x80..0x9F (R35, R56), as
(address, byte) pairs. A listed byte is one that has been written since reset; an unlisted address holds no value the
spec gives, and reads as the free value `Config.unwrittenByte` (DESIGN CHOICE, log entry 2; unsafe
only between two engines reset equally often). -/
abbrev Memory := List Host.Cell

/-- The canonical form: addresses strictly rise, and every listed address lies in one of the two buffers. An unlisted
address reads as no listed value, so no entry can repeat it. -/
abbrev Memory.wf (m : Memory) : Prop :=
  m.Pairwise (fun c d => c.1 < d.1) ∧ ∀ c ∈ m, Config.blkBase ≤ c.1 ∧ c.1 < Config.digEnd

/-- RESP of R71. -/
inductive Resp where
  | ok
  | err
deriving DecidableEq, Repr

/-- The response to a transaction (R71): RESP and RDATA. `Response.word` is its 33-bit word. -/
structure Response where
  resp : Resp
  rdata : Word
deriving DecidableEq, Repr

/-- What the host side can do to the engine: present a transaction word (R70) or assert reset (R230). -/
inductive HostEvent where
  | txn (w : BitVec 41)
  | reset
deriving DecidableEq, Repr

/-- An event waiting at the host side, and how many engine steps are taken before the host makes it when both agents can
move: the interleaving that R37, R156 and U7 leave free, as data (DESIGN CHOICE, log
entry 3; safe, since statements hold for every number). -/
structure Request where
  wait : Nat
  ev : HostEvent
deriving DecidableEq, Repr

/-- The whole state of one engine (10_state.md) and of its host port. -/
@[ext]
structure State where
  /-- Hash State H[0..7] (R20). -/
  H : Vector Word 8
  /-- Working State a..h (R21). -/
  ws : Vector Word 8
  /-- Message Schedule W[0..63] (R24). -/
  W : Vector Word 64
  /-- Block buffer BLK and digest buffer DIG at their addresses (R35, R56). -/
  mem : Memory
  /-- Micro-PC ph ‖ t (R27). -/
  upc : BitVec 9
  /-- Hash state initialised (R29). -/
  INITD : Bool
  /-- Digest valid (R30). -/
  DV : Bool
  /-- Block-valid mask (R31). -/
  BV : BitVec 16
  /-- Sticky AddrError flag (R31, R202). -/
  E_ADDR : Bool
  /-- Sticky CmdError flag (R31, R203). -/
  E_CMD : Bool
  /-- Sticky SeqError flag (R31, R204). -/
  E_SEQ : Bool
  /-- The model's own: what the host side has still to present, in its program order (R58, R84). DESIGN CHOICE, safe: log
  entry 12. -/
  port : List Request
  /-- The model's own: the responses given so far, oldest first (R71, R84). DESIGN CHOICE, safe: log entry 12. -/
  responses : List Response
  /-- The model's own: how many times reset has been asserted, the index of the free values of unspecified state.
  DESIGN CHOICE: log entries 1, 2 and 7. -/
  epoch : Nat
deriving DecidableEq, Repr

/-- What stops the machine. -/
inductive Fault where
  /-- Raised by the step when the micro-PC holds a control word that no rule produces and the host side has no event that
  can be taken: R79 gives such a state no step ("the state is stuck"). Safe: the spec gives it no next state
  (DEDUCED, log entry 11). -/
  | stuck
deriving DecidableEq, Repr

/-- What has no meaning. -/
inductive Refusal where
  /-- Raised by `exec` for an instruction that has no meaning yet; no instruction is so now. Safe. -/
  | notModelled (mnemonic : String)
  /-- Raised by the meaning of EXP for a term that is no instruction (t below 16, R77); the decoder never gives one.
  Safe (DESIGN CHOICE, log entry 15). -/
  | illFormed
deriving DecidableEq, Repr

/-- The engine right after its `epoch`-th reset (R38, R231): IDLE, every flag 0, registers and buffers unspecified. The
host side keeps what it has still to present and the responses it has had (DESIGN CHOICE, safe: log entry 7). -/
def State.afterReset (epoch : Nat) (port : List Request) (responses : List Response) : State where
  H := Vector.ofFn (Config.resetH epoch)
  ws := Vector.ofFn (Config.resetWs epoch)
  W := Vector.ofFn (Config.resetW epoch)
  mem := []
  upc := 0
  INITD := false
  DV := false
  BV := 0
  E_ADDR := false
  E_CMD := false
  E_SEQ := false
  port := port
  responses := responses
  epoch := epoch

/-- The machine right after reset, with nothing presented by the host side yet (R38, R231). -/
def State.reset : State := State.afterReset 0 [] []

end Sys2Proof.Machine
end

