-- ==== Sys2Proof/Machine/Operands.lean ====
section
/-! DEFINITION. Operand assembly: the byte address of a block word and of a digest word (R73, R56), the micro-PC an
operation loads (R74, R165), and the index arithmetic of the micro-operations (R74). -/

namespace Sys2Proof.Machine

/-- Byte address of block word `i` or of the word `LDW i` reads: 0x40 + 4i (R73, R74). -/
def blkAddr (i : Fin 16) : Nat := Config.blkBase + 4 * i.val

/-- Byte address of digest word `j`: 0x80 + 4j (R73). -/
def digAddr (j : Fin 8) : Nat := Config.digBase + 4 * j.val

/-- The micro-PC (ph, t) (R8, R27). -/
def upcAt (ph : BitVec 3) (t : Nat) : BitVec 9 := U.mk ph (BitVec.ofNat 6 t)

/-- Where an indexed micro-operation leaves the micro-PC: the next index of its phase, or the next phase after index 63
(R165). -/
def advance (ph : BitVec 3) (t : Fin 64) (nextPh : BitVec 3) : BitVec 9 :=
  if t.val < 63 then upcAt ph (t.val + 1) else upcAt nextPh 0

/-- The schedule index `t - d`, an ordinary subtraction that never goes below 0 for the operands of EXP (R74). -/
def backIndex (t : Fin 64) (d : Nat) : Fin 64 := ⟨t.val - d, Nat.lt_of_le_of_lt (Nat.sub_le _ _) t.isLt⟩

/-- The phase the micro-PC is in (R27). -/
def State.ph (s : State) : BitVec 3 := U.ph s.upc

/-- The index the micro-PC holds (R27). -/
def State.t (s : State) : BitVec 6 := U.t s.upc

end Sys2Proof.Machine
end

