-- ==== Sys2Proof/Machine/Flags.lean ====
section
/-! DEFINITION. The flags: the two that are computed and not stored (R28, R31), the status word (R33), the block-valid
mask (R31) and the sticky fault flags (R31, R200). There are no arithmetic condition codes (R28). -/

namespace Sys2Proof.Machine

/-- BUSY: ph is not 0 (R28, R33). -/
def State.busy (s : State) : Bool := s.ph != Phase.idle

/-- BV with every bit set. -/
def bvFull : BitVec 16 := 0xFFFF

/-- BFULL: every bit of BV is set (R31, R33). -/
def State.bfull (s : State) : Bool := s.BV == bvFull

/-- The value a read of STATUS returns (R33, R156). -/
def State.statusWord (s : State) : Word :=
  s.BV ++ 0#9 ++ BitVec.ofBool s.E_SEQ ++ BitVec.ofBool s.E_CMD ++ BitVec.ofBool s.E_ADDR ++ BitVec.ofBool s.bfull
    ++ BitVec.ofBool s.DV ++ BitVec.ofBool s.INITD ++ BitVec.ofBool s.busy

/-- BV with bit `i` set (R31, R154). -/
def setValid (bv : BitVec 16) (i : Fin 16) : BitVec 16 := bv ||| (1#16 <<< i.val)

/-- The three faults of the engine (R200). -/
inductive EngineError where
  | addrError
  | cmdError
  | seqError
deriving DecidableEq, Repr

/-- The fault R78 assigns to each class of illegal word (R202, R203). -/
def errorOf : IllegalClass → EngineError
  | .misaligned => .addrError
  | .reserved => .addrError
  | .readCtrl => .addrError
  | .writeStatus => .addrError
  | .readBlock => .addrError
  | .writeDigest => .addrError
  | .reservedCommand => .cmdError

/-- The sticky flag of `e` becomes 1; the other two keep their values (R208, R210). -/
def State.setSticky (s : State) (e : EngineError) : State :=
  { s with
    E_ADDR := s.E_ADDR || e == .addrError
    E_CMD := s.E_CMD || e == .cmdError
    E_SEQ := s.E_SEQ || e == .seqError }

end Sys2Proof.Machine
end

