-- ==== Sys2Proof/Machine/WordOps.lean ====
section
/-! DEFINITION. The modular word operations of 40_word_ops.md, pure functions on 32-bit words. -/

namespace Sys2Proof.Machine

/-- Addition modulo 2^32; the carry is recorded nowhere (R100). -/
def add32 (x y : Word) : Word := x + y

/-- The sum of any number of terms modulo 2^32 (R101). -/
def sum32 (xs : List Word) : Word := xs.foldl add32 0

/-- Right rotation by a constant amount 0 < n < 32 (R102). -/
def rotr (x : Word) (n : Nat) : Word := (x >>> n) ||| (x <<< (32 - n))

/-- Logical right shift (R103). -/
def shr (x : Word) (n : Nat) : Word := x >>> n

/-- "Choose" (R105). -/
def Ch (x y z : Word) : Word := (x &&& y) ^^^ (~~~x &&& z)

/-- "Majority" (R106). -/
def Maj (x y z : Word) : Word := (x &&& y) ^^^ (x &&& z) ^^^ (y &&& z)

/-- Σ0 (R107). -/
def bsig0 (x : Word) : Word := rotr x 2 ^^^ rotr x 13 ^^^ rotr x 22

/-- Σ1 (R108). -/
def bsig1 (x : Word) : Word := rotr x 6 ^^^ rotr x 11 ^^^ rotr x 25

/-- σ0; its third term is a shift (R109). -/
def ssig0 (x : Word) : Word := rotr x 7 ^^^ rotr x 18 ^^^ shr x 3

/-- σ1; its third term is a shift (R110). -/
def ssig1 (x : Word) : Word := rotr x 17 ^^^ rotr x 19 ^^^ shr x 10

/-- Four bytes to a word, the first the most significant (R111). -/
def be32 (b0 b1 b2 b3 : Byte) : Word := b0 ++ b1 ++ b2 ++ b3

/-- Byte `k` of the big-endian image of a word: x[31-8k : 24-8k] (R51, R112). -/
def byteOf (x : Word) (k : Fin 4) : Byte := x.extractLsb' (24 - 8 * k.val) 8

/-- A word to its four bytes, most significant first (R112). -/
def bytes32 (x : Word) : Byte × Byte × Byte × Byte := (byteOf x 0, byteOf x 1, byteOf x 2, byteOf x 3)

end Sys2Proof.Machine
end

