-- ==== Sys2Proof/Machine/Ops.lean ====
section
/-! DEFINITION. The shared operations over memory, the host port and the state: MemRead and MemWrite (R8), respond (R8,
R71), raise, which is all there is to taking an exception (R208; there is no return from one, R210), the hold (R157) and
the reset event (R230, R231). -/

namespace Sys2Proof.Machine

/-! ## Memory -/

/-- The byte listed at `a`, if one is. -/
def Memory.find (m : Memory) (a : Nat) : Option Byte :=
  match m with
  | [] => none
  | (k, b) :: rest => if k = a then some b else Memory.find rest a

/-- The memory with byte `b` at `a`, in canonical form again. -/
def Memory.set (m : Memory) (a : Nat) (b : Byte) : Memory :=
  match m with
  | [] => [(a, b)]
  | (k, c) :: rest =>
    if a < k then (a, b) :: (k, c) :: rest
    else if a = k then (a, b) :: rest
    else (k, c) :: Memory.set rest a b

/-- The four bytes of `v` at `a .. a+3`, most significant first (R8, R52). -/
def Memory.setWord (m : Memory) (a : Nat) (v : Word) : Memory :=
  (((m.set a (byteOf v 0)).set (a + 1) (byteOf v 1)).set (a + 2) (byteOf v 2)).set (a + 3) (byteOf v 3)

/-- The byte a buffer holds at address `a`: the one written last since reset, or the free value (R35, R38). -/
def State.readByte (s : State) (a : Nat) : Byte := (s.mem.find a).getD (Config.unwrittenByte s.epoch a)

/-- MemRead(a, 4) (R8): the byte at `a` is the most significant. -/
def State.memRead (s : State) (a : Nat) : Word :=
  be32 (s.readByte a) (s.readByte (a + 1)) (s.readByte (a + 2)) (s.readByte (a + 3))

/-- MemWrite(a, 4, v) (R8). -/
def State.memWrite (s : State) (a : Nat) (v : Word) : State := { s with mem := s.mem.setWord a v }

/-- The contents of the block buffer, BLK[0..63] (R35). -/
def State.block (s : State) : Vector Byte 64 := Vector.ofFn fun k => s.readByte (Config.blkBase + k.val)

/-- The contents of the digest buffer, DIG[0..31] (R35). -/
def State.dig (s : State) : Vector Byte 32 := Vector.ofFn fun k => s.readByte (Config.digBase + k.val)

/-! ## The host port -/

/-- RESP as its bit: 0 is OK, 1 is ERR (R71). -/
def Resp.code (r : Resp) : BitVec 1 :=
  match r with
  | .ok => 0
  | .err => 1

/-- The RESP of its bit (R71). -/
def Resp.ofCode (b : BitVec 1) : Resp := if b = 0 then .ok else .err

/-- The 33-bit response word (R71): RESP in bit 32, RDATA in bits 31:0. -/
def Response.word (r : Response) : BitVec 33 := r.resp.code ++ r.rdata

/-- The response of a 33-bit word (R71). -/
def Response.ofWord (w : BitVec 33) : Response := ⟨Resp.ofCode (w.extractLsb' 32 1), w.extractLsb' 0 32⟩

/-- The transaction in progress completes with RESP = r and RDATA = d (R8, R71). -/
def State.respond (s : State) (r : Resp) (d : Word) : State :=
  { s with port := s.port.tail, responses := s.responses ++ [⟨r, d⟩] }

/-- Taking an exception (R8, R208): the sticky flag of `e` is set, the transaction in progress is answered (ERR, 0), and
nothing else changes. -/
def State.raise (s : State) (e : EngineError) : State := (s.setSticky e).respond .err 0

/-- A transaction other than RDSTAT is evaluated only in a state with ph = 0; in any other it is held: no effect and no
response, the event stays at the port (R157; DEDUCED, safe: log entry 10). -/
def whenIdle (s : State) (effect : State → State) : Host.Outcome State Fault Refusal :=
  if s.ph = Phase.idle then .next (effect s) else .next s

/-- One engine step of the waiting time of the event at the head of the port has passed. -/
def State.elapse (s : State) : State :=
  { s with port := match s.port with
      | [] => []
      | r :: rest => { r with wait := r.wait - 1 } :: rest }

/-- Reset is asserted, in any state (R230, R231, R233): the event is done, has no response, and everything the reset
leaves unspecified is a new free value (DESIGN CHOICE, log entries 1, 2 and 7). -/
def State.assertReset (s : State) : State := State.afterReset (s.epoch + 1) s.port.tail s.responses

end Sys2Proof.Machine
end

