-- ==== Sys2Proof/Machine/Schedule.lean ====
section
/-! DEFINITION. The message-schedule expander (41_schedule.md): the function `sched` and the micro-operations LDW, EXP. -/

namespace Sys2Proof.Machine

/-- A Block: 64 bytes (R12). -/
abbrev Block := Vector Byte 64

/-- Word `t` of a block, big-endian (R50, R120). -/
def blockWord (B : Block) (t : Fin 16) : Word :=
  be32 (B.get ⟨4 * t.val, by omega⟩) (B.get ⟨4 * t.val + 1, by omega⟩) (B.get ⟨4 * t.val + 2, by omega⟩)
    (B.get ⟨4 * t.val + 3, by omega⟩)

/-- The recurrence of R120 for a word from index 16 on. -/
def expandWord (w16 w15 w7 w2 : Word) : Word := sum32 [w16, ssig0 w15, w7, ssig1 w2]

/-- Schedule word `n`, given the words before it in `ws` (R120). -/
def nextSched (B : Block) (ws : List Word) (n : Nat) : Word :=
  if h : n < 16 then blockWord B ⟨n, h⟩
  else expandWord (ws.getD (n - 16) 0) (ws.getD (n - 15) 0) (ws.getD (n - 7) 0) (ws.getD (n - 2) 0)

/-- The first `n` schedule words, in increasing index (R120). -/
def schedUpTo (B : Block) : Nat → List Word
  | 0 => []
  | n + 1 => let ws := schedUpTo B n; ws ++ [nextSched B ws n]

/-- `sched(B)`: the 64 words of the message schedule (R120). -/
def sched (B : Block) : Vector Word 64 := Vector.ofFn fun t => (schedUpTo B 64).getD t.val 0

/-- `LDW t`: W[t] is word t of the block buffer; upc moves to (1, t+1) (R121). -/
def execLdw (t : Fin 16) (s : State) : Host.Outcome State Fault Refusal :=
  .next { s with
    W := s.W.set t.val (s.memRead (blkAddr t)) (by omega)
    upc := upcAt Phase.sched (t.val + 1) }

/-- `EXP t`, t in 16..63: W[t] is the recurrence over four earlier words; upc moves to the next index, or to (2, 0) after
index 63 (R122). A term with t below 16 is no instruction (R77; DESIGN CHOICE, safe: log entry 15). -/
def execExp (t : Fin 64) (s : State) : Host.Outcome State Fault Refusal :=
  if t.val < 16 then .refused .illFormed
  else .next { s with
    W := s.W.set t.val (expandWord (s.W.get (backIndex t 16)) (s.W.get (backIndex t 15)) (s.W.get (backIndex t 7))
      (s.W.get (backIndex t 2)))
    upc := advance Phase.sched t Phase.wsinit }

end Sys2Proof.Machine
end

