-- ==== Sys2Proof/Machine/Compression.lean ====
section
/-! DEFINITION. The compression datapath (42_compression.md): the functions `round` and `compress` and the
micro-operations WSINIT, RND, ACC. -/

namespace Sys2Proof.Machine

/-- T1 of R131, from the old working state. -/
def roundT1 (s : Vector Word 8) (k w : Word) : Word :=
  sum32 [s.get 7, bsig1 (s.get 4), Ch (s.get 4) (s.get 5) (s.get 6), k, w]

/-- T2 of R131, from the old working state. -/
def roundT2 (s : Vector Word 8) : Word := add32 (bsig0 (s.get 0)) (Maj (s.get 0) (s.get 1) (s.get 2))

/-- One round, a simultaneous assignment of a..h from the old values (R131). -/
def round (s : Vector Word 8) (k w : Word) : Vector Word 8 :=
  #v[add32 (roundT1 s k w) (roundT2 s), s.get 0, s.get 1, s.get 2, add32 (s.get 3) (roundT1 s k w), s.get 4, s.get 5,
    s.get 6]

/-- The working state after rounds 0 .. n-1, in increasing index, for n up to 64 (R135). -/
def rounds (h : Vector Word 8) (w : Vector Word 64) : Nat → Vector Word 8
  | 0 => h
  | n + 1 => round (rounds h w n) (K (Fin.ofNat 64 n)) (w.get (Fin.ofNat 64 n))

/-- Element-wise addition modulo 2^32 (R134, R135). -/
def addWords (x y : Vector Word 8) : Vector Word 8 := Vector.ofFn fun i => add32 (x.get i) (y.get i)

/-- `compress(Hin, B)`: the next chain value; the working state starts from the chain value at every block (R135,
R137). -/
def compress (Hin : Vector Word 8) (B : Block) : Vector Word 8 := addWords Hin (rounds Hin (sched B) 64)

/-- `WSINIT`: ws is H; upc moves to (3, 0) (R132). -/
def execWsinit (s : State) : Host.Outcome State Fault Refusal :=
  .next { s with
    ws := s.H
    upc := upcAt Phase.rnd 0 }

/-- `RND t`: ws is round(ws, K[t], W[t]); upc moves to the next index, or to (4, 0) after index 63 (R133). -/
def execRnd (t : Fin 64) (s : State) : Host.Outcome State Fault Refusal :=
  .next { s with
    ws := round s.ws (K t) (s.W.get t)
    upc := advance Phase.rnd t Phase.acc }

/-- `ACC`: ws is added into H, BV is cleared, upc is IDLE; ws and W keep their values (R134, D18; DESIGN
CHOICE, unsafe: log entry 5). -/
def execAcc (s : State) : Host.Outcome State Fault Refusal :=
  .next { s with
    H := addWords s.H s.ws
    BV := 0
    upc := upcAt Phase.idle 0 }

end Sys2Proof.Machine
end

