-- ==== Sys2Proof/Machine/HostCommands.lean ====
section
/-! DEFINITION. The seven host transactions (44_host_commands.md). The order inside an accepted transaction is R158's:
the word is decoded, the state condition is checked, the effect is performed. -/

namespace Sys2Proof.Machine

/-- `NOP` (R150). -/
def execNop (s : State) : Host.Outcome State Fault Refusal :=
  whenIdle s fun s => s.respond .ok 0

/-- `INIT`: DV is cleared and the engine will execute HINIT (R151). -/
def execInit (s : State) : Host.Outcome State Fault Refusal :=
  whenIdle s fun s => { s with DV := false, upc := upcAt Phase.hinit 0 }.respond .ok 0

/-- `COMPRESS`: SeqError unless INITD = 1 and BV is full; else DV is cleared and the engine will execute LDW 0 .. ACC
(R152). -/
def execCompress (s : State) : Host.Outcome State Fault Refusal :=
  whenIdle s fun s =>
    if s.INITD = false ∨ s.BV ≠ bvFull then s.raise .seqError
    else { s with DV := false, upc := upcAt Phase.sched 0 }.respond .ok 0

/-- `DIGEST`: SeqError unless INITD = 1; else the engine will execute SER (R153). -/
def execDigest (s : State) : Host.Outcome State Fault Refusal :=
  whenIdle s fun s =>
    if s.INITD = false then s.raise .seqError
    else { s with upc := upcAt Phase.ser 0 }.respond .ok 0

/-- `WRBLK i, v`: v goes to BLK[4i..4i+3] and BV[i] is set (R154). -/
def execWrblk (i : Fin 16) (v : Word) (s : State) : Host.Outcome State Fault Refusal :=
  whenIdle s fun s => { s.memWrite (blkAddr i) v with BV := setValid s.BV i }.respond .ok 0

/-- `RDDIG j`: SeqError unless DV = 1; else the word at DIG[4j..4j+3] (R155). -/
def execRddig (j : Fin 8) (s : State) : Host.Outcome State Fault Refusal :=
  whenIdle s fun s =>
    if s.DV = false then s.raise .seqError
    else s.respond .ok (s.memRead (digAddr j))

/-- `RDSTAT`: the status word, accepted in any state (R156, R157). -/
def execRdstat (s : State) : Host.Outcome State Fault Refusal := .next (s.respond .ok s.statusWord)

end Sys2Proof.Machine
end

