-- ==== Sys2Proof/Machine/InitSerialize.lean ====
section
/-! DEFINITION. Hash-state initialisation and output serializer (43_init_and_serializer.md): `serialize` and the
micro-operations HINIT, SER. -/

namespace Sys2Proof.Machine

/-- `serialize(Hv)`: D[4i + k] is byte k of Hv[i], most significant first (R51, R146). -/
def serialize (Hv : Vector Word 8) : Vector Byte 32 :=
  Vector.ofFn fun n => byteOf (Hv.get ⟨n.val / 4, by omega⟩) ⟨n.val % 4, by omega⟩

/-- The eight words of `Hv` at their places in the digest buffer (R147). -/
def Memory.setDigest (m : Memory) (Hv : Vector Word 8) : Memory :=
  (List.finRange 8).foldl (fun m i => m.setWord (digAddr i) (Hv.get i)) m

/-- `HINIT`: H is IV, INITD is set, upc is IDLE (R145). -/
def execHinit (s : State) : Host.Outcome State Fault Refusal :=
  .next { s with
    H := IV
    INITD := true
    upc := upcAt Phase.idle 0 }

/-- `SER`: DIG is serialize(H), DV is set, upc is IDLE, all in one step (R147). -/
def execSer (s : State) : Host.Outcome State Fault Refusal :=
  .next { s with
    mem := s.mem.setDigest s.H
    DV := true
    upc := upcAt Phase.idle 0 }

end Sys2Proof.Machine
end

