-- ==== Sys2Proof/Machine/Dispatch.lean ====
section
/-! DEFINITION. One arm per instruction. -/

namespace Sys2Proof.Machine

def exec (i : Instr) (s : State) : Host.Outcome State Fault Refusal :=
  match i with
  -- host transactions (R150 to R156)
  | .nop => Sys2Proof.Machine.execNop s
  | .init => Sys2Proof.Machine.execInit s
  | .compress => Sys2Proof.Machine.execCompress s
  | .digest => Sys2Proof.Machine.execDigest s
  | .wrblk k v => Sys2Proof.Machine.execWrblk k v s
  | .rddig j => Sys2Proof.Machine.execRddig j s
  | .rdstat => Sys2Proof.Machine.execRdstat s
  -- micro-operations (R121, R122, R132 to R134, R145, R147)
  | .ldw t => Sys2Proof.Machine.execLdw t s
  | .exp t => Sys2Proof.Machine.execExp t s
  | .wsinit => Sys2Proof.Machine.execWsinit s
  | .rnd t => Sys2Proof.Machine.execRnd t s
  | .acc => Sys2Proof.Machine.execAcc s
  | .ser => Sys2Proof.Machine.execSer s
  | .hinit => Sys2Proof.Machine.execHinit s

end Sys2Proof.Machine
end

