-- ==== Sys2Proof/Machine/Agents.lean ====
section
/-! DEFINITION. The two agents that take steps (R11): the host, which presents what stands at its port, and the engine,
which executes the micro-operation its micro-PC holds. Which of the two moves, what each move does, and how an
instruction is placed so that the next step runs it. -/

namespace Sys2Proof.Machine

/-- The engine has a step: its micro-PC holds a micro-operation (R166, R79). -/
def State.engineCan (s : State) : Bool :=
  match decodeU s.upc with
  | .op _ => true
  | .idle => false
  | .unreachable => false

/-- The event can be taken now: reset always (R230), RDSTAT in any state, every other word, illegal ones too, only while
ph = 0 (R157, R159). A state with ph = 0 and t not 0 accepts too (DEDUCED, unsafe only where no run comes: log entry
8). -/
def State.accepts (s : State) (e : HostEvent) : Bool :=
  match e with
  | .reset => true
  | .txn w => s.ph = Phase.idle || decodeX w = .legal .rdstat

/-- The host moves: its event can be taken, and either its wait is over or the engine has no step (R59, R157;
DESIGN CHOICE, log entry 3; fairness is built in, log entry 16). -/
def State.hostMoves (s : State) (r : Request) : Bool := s.accepts r.ev && (r.wait == 0 || !s.engineCan)

/-- The host's move: a legal word is its instruction, an illegal one raises the fault of its class (R158, R159, R78), and
reset resets (R230). -/
def hostMove (s : State) (e : HostEvent) : Host.Outcome State Fault Refusal :=
  match e with
  | .reset => .next s.assertReset
  | .txn w => match decodeX w with
    | .legal i => exec i s
    | .illegal c => .next (s.raise (errorOf c))

/-- The engine's move: the micro-operation of its control word (R72). An IDLE engine stays as it is (R213; DESIGN CHOICE,
log entry 4); one whose control word no rule produces is stuck (R79; DEDUCED, log entry 11). -/
def engineMove (s : State) : Host.Outcome State Fault Refusal :=
  match decodeU s.upc with
  | .op i => exec i s.elapse
  | .idle => .next s
  | .unreachable => .fault .stuck

/-- One step of the two agents (R11, R58, R59). A transaction's effect and response are one step (R157; DEDUCED, log
entry 18). -/
def agentStep (s : State) : Host.Outcome State Fault Refusal :=
  match s.port with
  | [] => engineMove s
  | r :: _ => if s.hostMoves r then hostMove s r.ev else engineMove s

/-- The port with its next event delayed by one engine step, so that the engine moves first. -/
def delayHead : List Request → List Request
  | [] => []
  | r :: rest => { r with wait := r.wait + 1 } :: rest

/-- The state with `u` in the micro-PC and the engine the next to move. -/
def State.placeMicro (s : State) (u : BitVec 9) : State := { s with upc := u, port := delayHead s.port }

/-- The state with the transaction word `w` next at the port, and an engine in which it is accepted at once. -/
def State.placeTransaction (s : State) (w : BitVec 41) : State :=
  { s with
    port := ⟨0, .txn w⟩ :: s.port
    upc := if s.accepts (.txn w) then s.upc else upcAt Phase.idle 0 }

/-- A word of the opcode table placed as the next thing the machine does (R70, R72; DESIGN CHOICE, safe: log
entry 6). -/
def State.placeWord (s : State) (nbits w : Nat) : State :=
  if isControlWidth nbits then s.placeMicro (BitVec.ofNat 9 w) else s.placeTransaction (BitVec.ofNat 41 w)

end Sys2Proof.Machine
end

