-- ==== Sys2Proof/Machine/Step.lean ====
section
/-! DEFINITION. One step of the machine, and the placing of an instruction where the next step takes it from. -/

namespace Sys2Proof.Machine

/-- One step: an engine step or a host step (R11). -/
def step (s : State) : Host.Outcome State Fault Refusal := agentStep s

/-- `s` with the instruction of `nbits` bits `w` where the next step fetches it: a control word in the micro-PC, a
transaction word at the head of the host port. -/
def State.withFetchWord (s : State) (nbits w : Nat) : State := s.placeWord nbits w

end Sys2Proof.Machine
end

