-- ==== Sys2Proof/Machine/Framing.lean ====
section
/-! DEFINITION. What the host owes the engine (45_host_framing.md), as pure functions: the length check, the padding, the
split into blocks, the end-to-end function `sha256`, the hexadecimal form; and the host's assembler and driver (R82, R83,
R175) as lists of transaction words. None of it is engine hardware (R3). The words of a block and the words of the
digest go in increasing order, which R235 leaves to the host (DESIGN CHOICE, safe: log entry 14). -/

namespace Sys2Proof.Machine

/-- A Message: a finite sequence of bytes (R170). -/
abbrev Message := List Byte

/-- The one error of the host side (R171, R201). -/
inductive HostError where
  | lengthOverflow
deriving DecidableEq, Repr

/-- Lengths from here on raise LengthOverflow (R171). -/
abbrev lengthLimit : Nat := 2 ^ 61

/-- The length check: made before anything else (R171). -/
def checkLength (M : Message) : Except HostError Unit :=
  if lengthLimit ≤ M.length then .error .lengthOverflow else .ok ()

/-- The number of zero bytes of the padding: (55 - L) mod 64, in 0..63 (R172). -/
def padZeros (L : Nat) : Nat := ((55 - (L : Int)) % 64).toNat

/-- The 8-byte length field: `n` as a big-endian 64-bit number (R172). -/
def be64 (n : Nat) : List Byte :=
  (List.range 8).map fun k => (BitVec.ofNat 64 n).extractLsb' (56 - 8 * k) 8

/-- `pad(M)`: the message, 0x80, the zero bytes, the length of the message in bits (R172). -/
def pad (M : Message) : List Byte :=
  M ++ [0x80] ++ List.replicate (padZeros M.length) 0 ++ be64 (8 * M.length)

/-- The number of blocks of a padded message (R173). -/
def blockCount (P : List Byte) : Nat := P.length / 64

/-- Block `k` of a padded message: P[64k .. 64k+64) (R174). -/
def blockOf (P : List Byte) (k : Nat) : Block := Vector.ofFn fun i => P.getD (64 * k + i.val) 0

/-- The chain value after the first `k` blocks of `P` (R138, R176). -/
def chain (P : List Byte) : Nat → Vector Word 8
  | 0 => IV
  | k + 1 => compress (chain P k) (blockOf P k)

/-- `sha256(M)` (R176), defined for messages that pass the length check (R171). -/
def sha256 (M : Message) : Except HostError (Vector Byte 32) :=
  (checkLength M).map fun _ => serialize (chain (pad M) (blockCount (pad M)))

/-- The alphabet of R178. -/
def hexAlphabet : List Char :=
  ['0', '1', '2', '3', '4', '5', '6', '7', '8', '9', 'a', 'b', 'c', 'd', 'e', 'f']

/-- The digit of a four-bit value (R178). -/
def hexDigit (n : BitVec 4) : Char := hexAlphabet.getD n.toNat '0'

/-- `hex(D)`: two characters a byte, bits 7:4 first; the characters of the string in order (R178). -/
def hex (D : List Byte) : List Char :=
  D.flatMap fun b => [hexDigit (b.extractLsb' 4 4), hexDigit (b.extractLsb' 0 4)]

/-- `hex_digest(M)` (R178). -/
def hexDigest (M : Message) : Except HostError (List Char) := (sha256 M).map fun D => hex D.toList

/-! ## The assembler (R82, R83) -/

/-- A line of a host program: a transaction, or `RAW x`, a word given literally (R82). -/
inductive Line where
  | ins (i : Instr)
  | raw (x : BitVec 41)
deriving DecidableEq, Repr

/-- The transaction word of a line; micro-operations are never written by a programmer (R82). -/
def Line.word : Line → Option (BitVec 41)
  | .raw x => some x
  | .ins i => match encode i with
    | .x w => some w
    | .u _ => none

/-- `BLOCK v0, .., v15` (R83). -/
def blockLines (v : Vector Word 16) : List Line := (List.finRange 16).map fun i => .ins (.wrblk i (v.get i))

/-- The sixteen words of a block (R50, R174). -/
def blockWords (B : Block) : Vector Word 16 := Vector.ofFn (blockWord B)

/-- `BLOCKB b0 .. b63` (R83). -/
def blockBytesLines (B : Block) : List Line := blockLines (blockWords B)

/-- `HASHBLK v0, .., v15` (R83). -/
def hashBlockLines (v : Vector Word 16) : List Line := blockLines v ++ [.ins .compress]

/-- `GETDIGEST` (R83). -/
def getDigestLines : List Line := .ins .digest :: (List.finRange 8).map fun j => .ins (.rddig j)

/-- The driver's transactions for a padded message: INIT, the blocks in increasing order, GETDIGEST (R175). -/
def driverLines (P : List Byte) : List Line :=
  .ins .init :: (List.range (blockCount P)).flatMap (fun k => hashBlockLines (blockWords (blockOf P k)))
    ++ getDigestLines

/-- The driver's transactions for a message; no transaction at all where the length check fails (R171, R175). -/
def driver (M : Message) : Except HostError (List Line) := (checkLength M).map fun _ => driverLines (pad M)

/-- The 32 bytes the driver returns, from the last eight responses (R175, R83). -/
def digestOf (rs : List Response) : List Byte :=
  (rs.drop (rs.length - 8)).flatMap fun r => [byteOf r.rdata 0, byteOf r.rdata 1, byteOf r.rdata 2, byteOf r.rdata 3]

/-- The lines at the host port, the `n`-th presented after `waits n` engine steps where both agents could move (R58,
R59). -/
def requestsOf (waits : List Nat) (ls : List Line) : List Request :=
  (ls.filterMap Line.word).zipIdx.map fun (w, n) => ⟨waits.getD n 0, .txn w⟩

end Sys2Proof.Machine
end

