-- ==== Sys2Proof/Machine/HostProgram.lean ====
section
/-! DEFINITION. A host that chooses its next transaction from what it has seen (R84), run on the machine: it presents one
transaction at a time and waits for its response (R58), and reset may be asserted at any step, also while a transaction
is held (R182, R230, R233). -/

namespace Sys2Proof.Machine

/-- What a host has seen done: a response (R71), or a reset. R84 speaks of responses alone; that a host also knows of the
resets (R182 lets it assert them, and a reset has no response) is the model's choice: DESIGN CHOICE, safe, log entry
19. -/
inductive Seen where
  | response (r : Response)
  | reset
deriving DecidableEq, Repr

/-- From what it has seen so far, oldest first, to the next transaction word, or done (R84). -/
abbrev HostProgram := List Seen → Option (BitVec 41)

/-- The responses among what a host has seen. -/
def responsesIn (seen : List Seen) : List Response :=
  seen.filterMap fun
    | .response r => some r
    | .reset => none

/-- A host as R84 has it, a function of the responses alone: a reset does not change which transaction is its next
(DESIGN CHOICE, safe, log entry 19). -/
def ofResponses (f : List Response → Option (BitVec 41)) : HostProgram := fun seen => f (responsesIn seen)

/-- What is free in a run (R37, R156, R230, U7): at which steps the host comes forward with its next transaction, and at
which steps reset is asserted. It is fair (R243): time and again the host does not come forward, so an engine that is
not IDLE takes its next step. The moments of a reset are free, and no rule makes the host go on. DESIGN CHOICE, log
entries 16 and 19. -/
structure Schedule where
  offers : Nat → Bool
  reset : Nat → Bool
  fair : ∀ n, ∃ m, n ≤ m ∧ offers m = false

/-- A machine and what its host has seen so far. -/
@[ext]
structure Session where
  state : State
  seen : List Seen
deriving DecidableEq, Repr

/-- The host presents `next` where nothing stands at the port (R58). -/
def State.present (s : State) (next : Option (BitVec 41)) : State :=
  match s.port, next with
  | [], some w => { s with port := [⟨0, .txn w⟩] }
  | _, _ => s

/-- Reset is asserted now; a transaction at the port stays there, and is accepted against the reset state (R233). -/
def State.withReset (s : State) : State := { s with port := ⟨0, .reset⟩ :: s.port }

/-- The state in which step `n` of the run is taken. -/
def Session.before (p : HostProgram) (c : Schedule) (n : Nat) (x : Session) : State :=
  if c.reset n then x.state.withReset
  else if c.offers n then x.state.present (p x.seen)
  else x.state

/-- What the host sees done by a step from `s` to `t`. -/
def seenIn (s t : State) : List Seen :=
  (if t.epoch = s.epoch then [] else [.reset]) ++ (t.responses.drop s.responses.length).map .response

/-- Step `n` of the run of `p`. -/
def Session.step (p : HostProgram) (c : Schedule) (n : Nat) (x : Session) : Host.Outcome Session Fault Refusal :=
  match Machine.step (x.before p c n) with
  | .next t => .next ⟨t, x.seen ++ seenIn x.state t⟩
  | .fault r => .fault r
  | .refused r => .refused r

/-- `k` steps of the run of `p`, the first of them step `n`. -/
def runHost (p : HostProgram) (c : Schedule) : Nat → Nat → Session → Host.Outcome Session Fault Refusal
  | 0, _, x => .next x
  | k + 1, n, x => match x.step p c n with
    | .next y => runHost p c k (n + 1) y
    | .fault r => .fault r
    | .refused r => .refused r

/-- The run of a host program is finished: the host has nothing at the port and no further transaction, and ph = 0
(R168). -/
def Session.finished (p : HostProgram) (x : Session) : Prop :=
  x.state.port = [] ∧ p x.seen = none ∧ x.state.upc = upcAt Phase.idle 0

/-- Finished, and no fault flag is set (R168, R209). -/
def Session.final (p : HostProgram) (x : Session) : Prop :=
  x.finished p ∧ x.state.E_ADDR = false ∧ x.state.E_CMD = false ∧ x.state.E_SEQ = false

/-- The word by which the host reads STATUS, as the `WAIT` loop does (R83). -/
def pollWord : BitVec 41 := X.mk false Config.statusAddr 0

end Sys2Proof.Machine
end

