-- ==== Sys2Proof/Machine/Assembler.lean ====
section
/-! DEFINITION. The textual form of a host program (R82, R83) and the host that runs one (R84). A text line is a list of
characters. What R82 leaves open of the text (blanks around operands, capitals among hexadecimal digits, blank lines, a
`0x` before a byte of BLOCKB or none) is accepted: DESIGN CHOICE, safe, log entry 14. -/

namespace Sys2Proof.Machine

/-! ## Numbers -/

/-- A blank between the parts of a line. -/
def isBlank (c : Char) : Bool := c == ' ' || c == '\t'

/-- The text without the blanks at its two ends. -/
def trimBlanks (cs : List Char) : List Char := ((cs.dropWhile isBlank).reverse.dropWhile isBlank).reverse

/-- The value of a digit in base `base`, at most 16. -/
def digitValue (base : Nat) (c : Char) : Option Nat :=
  let n := hexAlphabet.idxOf c.toLower
  if n < base then some n else none

/-- The value of a text of one or more digits in base `base`. -/
def readDigits (base : Nat) (cs : List Char) : Option Nat :=
  match cs with
  | [] => none
  | _ :: _ => cs.foldlM (fun n c => (digitValue base c).map fun d => base * n + d) 0

/-- A number: `0x` and hexadecimal digits, else decimal digits (R7). -/
def readNumber (cs : List Char) : Option Nat :=
  match cs with
  | '0' :: 'x' :: ds => readDigits 16 ds
  | ds => readDigits 10 ds

/-- The text without a `0x` at its front. -/
def withoutPrefix (cs : List Char) : List Char :=
  match cs with
  | '0' :: 'x' :: ds => ds
  | ds => ds

/-- `n` where it is below the bound. -/
def below (bound n : Nat) : Option (Fin bound) := if h : n < bound then some ⟨n, h⟩ else none

/-- A decimal index below `bound` (R82). -/
def readIndex (bound : Nat) (cs : List Char) : Option (Fin bound) := readDigits 10 cs >>= below bound

/-- A 32-bit number (R82). -/
def readWord (cs : List Char) : Option Word := (readNumber cs >>= below (2 ^ 32)).map BitVec.ofFin

/-- A 41-bit number (R82). -/
def readRaw (cs : List Char) : Option (BitVec 41) := (readNumber cs >>= below (2 ^ 41)).map BitVec.ofFin

/-- A byte in hexadecimal (R83). That the digits may stand alone or after `0x`, and that there may be any number of them
for a value below 256, is the model's choice: DESIGN CHOICE, safe, log entry 14. -/
def readByteText (cs : List Char) : Option Byte := (readDigits 16 (withoutPrefix cs) >>= below (2 ^ 8)).map BitVec.ofFin

/-! ## Lines -/

/-- What a line of text stands for: lines that are one transaction each, or the `WAIT` loop (R83). -/
inductive Command where
  | line (l : Line)
  | wait
deriving DecidableEq, Repr

/-- The operands of a line, separated by commas (R82). -/
def operandsOf (cs : List Char) : List (List Char) :=
  match trimBlanks cs with
  | [] => []
  | ds => (ds.splitOn ',').map trimBlanks

/-- The bytes of `BLOCKB`, separated by blanks (R83). -/
def bytesOf (cs : List Char) : List (List Char) := (cs.splitOnP isBlank).filter (· ≠ [])

/-- The list as `n` values, if it has that many. -/
def exactly {α : Type} (n : Nat) (xs : List α) : Option (Vector α n) :=
  if h : xs.length = n then some ⟨xs.toArray, by simpa using h⟩ else none

/-- A line without operands. -/
def readNullary (ls : List Command) (operands : List Char) : Option (List Command) :=
  if operandsOf operands = [] then some ls else none

/-- The operand of a line with one operand. -/
def readUnary {α : Type} (read : List Char → Option α) (operands : List Char) : Option α :=
  match operandsOf operands with
  | [x] => read x
  | _ => none

/-- The two operands of `WRBLK` (R82). -/
def readWrblk (operands : List Char) : Option Line :=
  match operandsOf operands with
  | [i, v] => (readIndex 16 i).bind fun i => (readWord v).map fun v => .ins (.wrblk i v)
  | _ => none

/-- The sixteen operands of `BLOCK` and `HASHBLK` (R83). -/
def readBlockWords (operands : List Char) : Option (Vector Word 16) :=
  (operandsOf operands).mapM readWord >>= exactly 16

/-- The 64 operands of `BLOCKB` (R83). -/
def readBlockBytes (operands : List Char) : Option Block := (bytesOf operands).mapM readByteText >>= exactly 64

/-- The lines as what they stand for. -/
def commandsOf (ls : List Line) : List Command := ls.map Command.line

/-- What a line with the mnemonic `m` stands for (R82, R83). -/
def readCommand (m operands : List Char) : Option (List Command) :=
  if m = "NOP".toList then readNullary [.line (.ins .nop)] operands
  else if m = "INIT".toList then readNullary [.line (.ins .init)] operands
  else if m = "COMPRESS".toList then readNullary [.line (.ins .compress)] operands
  else if m = "DIGEST".toList then readNullary [.line (.ins .digest)] operands
  else if m = "RDSTAT".toList then readNullary [.line (.ins .rdstat)] operands
  else if m = "WRBLK".toList then (readWrblk operands).map fun l => [.line l]
  else if m = "RDDIG".toList then (readUnary (readIndex 8) operands).map fun j => [.line (.ins (.rddig j))]
  else if m = "RAW".toList then (readUnary readRaw operands).map fun x => [.line (.raw x)]
  else if m = "BLOCK".toList then (readBlockWords operands).map fun v => commandsOf (blockLines v)
  else if m = "BLOCKB".toList then (readBlockBytes operands).map fun B => commandsOf (blockBytesLines B)
  else if m = "HASHBLK".toList then
    (readBlockWords operands).map fun v => commandsOf (hashBlockLines v)
  else if m = "GETDIGEST".toList then readNullary (commandsOf getDigestLines) operands
  else if m = "WAIT".toList then readNullary [.wait] operands
  else none

/-- What one line of text stands for; `;` starts a comment (R82). -/
def readLine (cs : List Char) : Option (List Command) :=
  match trimBlanks (cs.takeWhile (· ≠ ';')) with
  | [] => some []
  | body => readCommand (body.takeWhile fun c => !isBlank c) (body.dropWhile fun c => !isBlank c)

/-- What a text of several lines stands for, where every line is one of R82 or R83. -/
def assemble (lines : List (List Char)) : Option (List Command) := (lines.mapM readLine).map List.flatten

/-! ## Traces -/

/-- A mnemonic with its index, in decimal (R82). -/
def indexed (m : List Char) (t : Nat) : List Char := m ++ [' '] ++ Nat.toDigits 10 t

/-- A word as `0x` and eight digits (R82). -/
def wordText (v : Word) : List Char := ['0', 'x'] ++ hex [byteOf v 0, byteOf v 1, byteOf v 2, byteOf v 3]

/-- How an instruction is spelled in programs and in traces (R82). -/
def instrText (i : Instr) : List Char :=
  match i with
  | .nop => "NOP".toList
  | .init => "INIT".toList
  | .compress => "COMPRESS".toList
  | .digest => "DIGEST".toList
  | .wrblk i v => indexed "WRBLK".toList i.val ++ [',', ' '] ++ wordText v
  | .rddig j => indexed "RDDIG".toList j.val
  | .rdstat => "RDSTAT".toList
  | .ldw t => indexed "LDW".toList t.val
  | .exp t => indexed "EXP".toList t.val
  | .wsinit => "WSINIT".toList
  | .rnd t => indexed "RND".toList t.val
  | .acc => "ACC".toList
  | .ser => "SER".toList
  | .hinit => "HINIT".toList

/-! ## The host that runs a program -/

/-- The responses after those of a `WAIT` loop; none while the loop goes on (R83). -/
def afterWait (rs : List Response) : Option (List Response) :=
  match rs with
  | [] => none
  | r :: rest => if r.rdata.getLsbD 0 then afterWait rest else some rest

/-- The next transaction of the commands `cs` after the responses `rs`: the transactions in order, one response each, and
polls at every `WAIT` (R58, R83). A micro-operation is no transaction and is passed over (R82). -/
def nextWord (cs : List Command) (rs : List Response) : Option (BitVec 41) :=
  match cs with
  | [] => none
  | .line l :: rest => match l.word with
    | none => nextWord rest rs
    | some w => match rs with
      | [] => some w
      | _ :: rs => nextWord rest rs
  | .wait :: rest => match afterWait rs with
    | none => some pollWord
    | some rs => nextWord rest rs

/-- The host program of the commands `cs` (R84). -/
def programOf (cs : List Command) : HostProgram := ofResponses (nextWord cs)

end Sys2Proof.Machine
end

