-- ==== Sys2Proof/Machine/BigStep.lean ====
section
/-! DEFINITION. The big-step view of R167: each command as one transition on IDLE states, with the response it gives. The
machine of Step.lean is the reference (R10, D19); these functions say what a whole command comes to. -/

namespace Sys2Proof.Machine

/-- INIT: (H, INITD, DV) becomes (IV, 1, 0) (R167). -/
def bigInit (s : State) : State := { s with H := IV, INITD := true, DV := false }.respond .ok 0

/-- COMPRESS: (H, BV, DV) becomes (compress(H, BLK), 0, 0), or SeqError (R167). -/
def bigCompress (s : State) : State :=
  if s.INITD = true ∧ s.BV = bvFull then
    { s with H := compress s.H s.block, BV := 0, DV := false }.respond .ok 0
  else s.raise .seqError

/-- DIGEST: (DIG, DV) becomes (serialize(H), 1), or SeqError (R167). -/
def bigDigest (s : State) : State :=
  if s.INITD = true then { s with mem := s.mem.setDigest s.H, DV := true }.respond .ok 0
  else s.raise .seqError

/-- Two states that differ at most in W and ws, which hold nothing a rule reads once a block is done (R24, D18). -/
def SameButScratch (s t : State) : Prop := { s with W := t.W, ws := t.ws } = t

end Sys2Proof.Machine
end

