-- ==== Sys2Proof/Safety.lean ====
section
/-! DEFINITION. What claims are stated in: the end of a run (R168), the invariants of R39, and runs of the engine with the
host side kept off. -/

namespace Sys2Proof.Machine

/-- `n` steps of the machine. -/
def steps (n : Nat) (s : State) : Host.Outcome State Fault Refusal := Host.Core.run Sys2Proof.core n s

/-- Finished (R168), for a host whose whole program is listed at the port: it has nothing further to present and ph = 0. A
state that R79 calls stuck is never final, so the control word is IDLE's own. For a host that chooses its transactions
as it goes, `Session.finished` asks too that it has none left. -/
def State.finished (s : State) : Prop := s.port = [] ∧ s.upc = upcAt Phase.idle 0

/-- Finished, for a host whose whole program is listed at the port, and no fault flag is set (R168, R209). -/
def State.final (s : State) : Prop := s.finished ∧ s.E_ADDR = false ∧ s.E_CMD = false ∧ s.E_SEQ = false

/-- The control word is IDLE or a micro-operation (R39 I1, R79). -/
def legalUpc (u : BitVec 9) : Prop := decodeU u ≠ .unreachable

/-- The byte at `a` has been written since reset. -/
abbrev Memory.holds (m : Memory) (a : Nat) : Prop := (m.find a).isSome

/-- The engine is running a COMPRESS: ph in {1, 2, 3, 4}. -/
def State.compressing (s : State) : Prop :=
  s.ph = Phase.sched ∨ s.ph = Phase.wsinit ∨ s.ph = Phase.rnd ∨ s.ph = Phase.acc

/-- The invariants of R39. "Defined" is said of the buffers as "written since reset"; of W and ws it is said by the value
they hold (I8), which is more than R39 says. (I5) adds nothing here: every register holds a value at all times.
(I9) is a fact about steps, not states. The clause on HINIT (`dvClear` in phase 6) is what I7 needs to be kept: R151
clears DV before HINIT writes H. DEDUCED, safe: log entry 13. -/
structure Invariants (s : State) : Prop where
  /-- (I1) -/
  upc : legalUpc s.upc
  /-- (I2) and (I4) -/
  initd : s.compressing ∨ s.ph = Phase.ser → s.INITD = true
  /-- (I2), and R151 for phase 6 -/
  dvClear : s.compressing ∨ s.ph = Phase.hinit → s.DV = false
  /-- (I3) -/
  bvFull : s.compressing → s.BV = bvFull
  /-- (I6) -/
  blkWritten : ∀ i : Fin 16, s.BV.getLsbD i.val = true → ∀ k : Fin 4, s.mem.holds (blkAddr i + k.val)
  /-- (I7) -/
  digest : s.DV = true → s.INITD = true ∧ (∀ k : Fin 32, s.mem.holds (Config.digBase + k.val)) ∧
    s.dig = serialize s.H
  /-- (I8), phase 1 -/
  schedSoFar : s.ph = Phase.sched → ∀ k : Fin 64, k.val < s.t.toNat → s.W.get k = (sched s.block).get k
  /-- (I8), phases 2 to 4 -/
  schedDone : s.ph = Phase.wsinit ∨ s.ph = Phase.rnd ∨ s.ph = Phase.acc → s.W = sched s.block
  /-- (I8), phase 3 -/
  roundsSoFar : s.ph = Phase.rnd → s.ws = rounds s.H s.W s.t.toNat
  /-- (I8), phase 4 -/
  roundsDone : s.ph = Phase.acc → s.ws = rounds s.H s.W 64
  /-- Memory keeps its canonical form. -/
  memory : s.mem.wf

/-- For the next `n` engine steps the host makes no move: nothing stands at the port `p`, or the event at its head waits
that long, or it is a word that is held while the engine runs (R157). -/
def quietPort (p : List Request) (n : Nat) : Prop :=
  ∀ r, p.head? = some r → n ≤ r.wait ∨ ∃ w, r.ev = .txn w ∧ decodeX w ≠ .legal .rdstat

/-- The host makes no move for the next `n` engine steps. -/
def State.undisturbed (s : State) (n : Nat) : Prop := quietPort s.port n

/-- The port after `n` engine steps without a host move. -/
def elapsedPort (n : Nat) : List Request → List Request
  | [] => []
  | r :: rest => { r with wait := r.wait - n } :: rest

/-- How many engine steps lead from a control word to IDLE (R166). -/
def stepsLeft (u : BitVec 9) : Nat :=
  match decodeU u with
  | .op (.ldw t) => 130 - t.val
  | .op (.exp t) => 130 - t.val
  | .op .wsinit => 66
  | .op (.rnd t) => 65 - t.val
  | .op .acc | .op .ser | .op .hinit => 1
  | .op .nop | .op .init | .op .compress | .op .digest | .op (.wrblk _ _) | .op (.rddig _) | .op .rdstat
  | .idle | .unreachable => 0

/-- The step that `s` takes is a reset. -/
def State.resetsNext (s : State) : Prop := ∃ r rest, s.port = r :: rest ∧ s.hostMoves r = true ∧ r.ev = .reset

end Sys2Proof.Machine
end

