-- ==== Sys2Proof/Certificates/Slice0/Obligations.lean ====
section
/-! DEFINITION. The statements for the provers, from the rules of spec/. Where a statement speaks of the engine's steps, the
host's events at the port are as the statement's hypotheses say; every other state is covered. -/

open Sys2Proof Sys2Proof.Machine

/-! ## Word operations (40_word_ops.md) and constants (10_state.md) -/

/-- R100: the low 32 bits of the integer sum. -/
def Obligations.AddWrapsModulo2Pow32 : Prop :=
  ∀ x y : Word, (add32 x y).toNat = (x.toNat + y.toNat) % 2 ^ 32

/-- R101: the sum of any number of terms is the integer sum modulo 2^32, in any order and with any association. -/
def Obligations.SumIsModularInAnyOrder : Prop :=
  ∀ xs ys : List Word,
    (sum32 xs).toNat = (xs.map BitVec.toNat).sum % 2 ^ 32 ∧
    (xs.Perm ys → sum32 ys = sum32 xs) ∧
    sum32 (xs ++ ys) = add32 (sum32 xs) (sum32 ys)

/-- R102 and R103: which bit of the argument each bit of a rotation and of a shift is. -/
def Obligations.RotateAndShiftMoveBits : Prop :=
  (∀ (x : Word) (n : Nat), 0 < n → n < 32 → ∀ i, i < 32 →
    (rotr x n).getLsbD i = x.getLsbD ((i + n) % 32)) ∧
  ∀ (x : Word) (n : Nat), (shr x n).toNat = x.toNat / 2 ^ n

/-- R105 and R106: "choose" takes y where x is 1 and z elsewhere; "majority" is 1 where at least two arguments are. -/
def Obligations.ChooseAndMajorityByBit : Prop :=
  ∀ (x y z : Word) (i : Nat), i < 32 →
    (Ch x y z).getLsbD i = (if x.getLsbD i then y.getLsbD i else z.getLsbD i) ∧
    ((Maj x y z).getLsbD i = true ↔
      2 ≤ (x.getLsbD i).toNat + (y.getLsbD i).toNat + (z.getLsbD i).toNat)

/-- R107 to R110: each bit of the four sigma functions; the third term of the small ones is a shift, so it is 0 in the
top bits. -/
def Obligations.SigmaFunctionsByBit : Prop :=
  ∀ (x : Word) (i : Nat), i < 32 →
    (bsig0 x).getLsbD i = (x.getLsbD ((i + 2) % 32) ^^ x.getLsbD ((i + 13) % 32) ^^ x.getLsbD ((i + 22) % 32)) ∧
    (bsig1 x).getLsbD i = (x.getLsbD ((i + 6) % 32) ^^ x.getLsbD ((i + 11) % 32) ^^ x.getLsbD ((i + 25) % 32)) ∧
    (ssig0 x).getLsbD i =
      (x.getLsbD ((i + 7) % 32) ^^ x.getLsbD ((i + 18) % 32) ^^ (decide (i + 3 < 32) && x.getLsbD (i + 3))) ∧
    (ssig1 x).getLsbD i =
      (x.getLsbD ((i + 17) % 32) ^^ x.getLsbD ((i + 19) % 32) ^^ (decide (i + 10 < 32) && x.getLsbD (i + 10)))

/-- R111 and R112: the value of be32, and that bytes32 is its inverse. -/
def Obligations.BigEndianPackingIsInverse : Prop :=
  (∀ b0 b1 b2 b3 : Byte,
    (be32 b0 b1 b2 b3).toNat = b0.toNat * 2 ^ 24 + b1.toNat * 2 ^ 16 + b2.toNat * 2 ^ 8 + b3.toNat ∧
    bytes32 (be32 b0 b1 b2 b3) = (b0, b1, b2, b3)) ∧
  ∀ x : Word,
    bytes32 x = (x.extractLsb' 24 8, x.extractLsb' 16 8, x.extractLsb' 8 8, x.extractLsb' 0 8) ∧
    be32 (bytes32 x).1 (bytes32 x).2.1 (bytes32 x).2.2.1 (bytes32 x).2.2.2 = x

/-- R116: the identities of the word operations. -/
def Obligations.WordOperationIdentities : Prop :=
  ∀ x y z : Word,
    (∀ n, 0 < n → n < 32 → rotr (x ^^^ y) n = rotr x n ^^^ rotr y n) ∧
    Ch x y z = ((x &&& y) ||| (~~~x &&& z)) ∧ Ch x y z = (z ^^^ (x &&& (y ^^^ z))) ∧
    Maj x y z = ((x &&& y) ||| (z &&& (x ||| y))) ∧
    bsig0 (x ^^^ y) = bsig0 x ^^^ bsig0 y ∧ bsig1 (x ^^^ y) = bsig1 x ^^^ bsig1 y ∧
    ssig0 (x ^^^ y) = ssig0 x ^^^ ssig0 y ∧ ssig1 (x ^^^ y) = ssig1 x ^^^ ssig1 y ∧
    bsig0 0 = 0 ∧ bsig1 0 = 0 ∧ ssig0 0 = 0 ∧ ssig1 0 = 0 ∧
    add32 x y = add32 y x ∧ add32 (add32 x y) z = add32 x (add32 y z) ∧ add32 x 0 = x ∧
    add32 x (BitVec.ofNat 32 (2 ^ 32 - x.toNat)) = 0

/-- R25 and R26: each round constant is the first 32 bits of the fractional part of the cube root of its prime, each
initial value those of the square root: the integer root n of p scaled by 2^32 gives n mod 2^32. -/
def Obligations.ConstantsAreRootsOfPrimes : Prop :=
  (∀ t : Fin 64, ∃ p n, p.Prime ∧ Nat.count Nat.Prime p = t.val ∧
    n ^ 3 ≤ p * 2 ^ 96 ∧ p * 2 ^ 96 < (n + 1) ^ 3 ∧ (K t).toNat = n % 2 ^ 32) ∧
  ∀ i : Fin 8, ∃ p n, p.Prime ∧ Nat.count Nat.Prime p = i.val ∧
    n ^ 2 ≤ p * 2 ^ 64 ∧ p * 2 ^ 64 < (n + 1) ^ 2 ∧ (IV.get i).toNat = n % 2 ^ 32

/-! ## Encodings (30_encoding.md) -/

/-- Decoding the word of any well-formed instruction gives it back, with every operand at every value. -/
def Obligations.DecodeOfEncodeIsIdentity : Prop :=
  ∀ i : Instr, i.wf = true → decode (encode i) = some i

/-- The other direction: a word that decodes to an instruction is that instruction's word, but for the WDATA bits of a
read, which are ignored (R70, R80); and what a word decodes to is well formed and of its format. -/
def Obligations.EncodeOfDecodeIsCanonicalWord : Prop :=
  (∀ (u : BitVec 9) (i : Instr), decodeU u = .op i →
    i.wf = true ∧ i.isTransaction = false ∧ encode i = .u u) ∧
  ∀ (w : BitVec 41) (i : Instr), decodeX w = .legal i →
    i.wf = true ∧ i.isTransaction = true ∧ encode i = .x (if w.getLsbD 40 then w else w &&& 0x1FF00000000)

/-- R76: which words each row of the table of host transactions selects, and what they decode to (the operands as R73
gives them); a word that no row selects is illegal, and no word is selected by two rows. -/
def Obligations.TransactionRowsDecodeAsTabled : Prop :=
  ∀ w : BitVec 41,
    ((w &&& 0x1FFFFFFFFFF = 0x10000000000) → decodeX w = .legal .nop) ∧
    ((w &&& 0x1FFFFFFFFFF = 0x10000000001) → decodeX w = .legal .init) ∧
    ((w &&& 0x1FFFFFFFFFF = 0x10000000002) → decodeX w = .legal .compress) ∧
    ((w &&& 0x1FFFFFFFFFF = 0x10000000003) → decodeX w = .legal .digest) ∧
    ((w &&& 0x1C300000000 = 0x14000000000) →
      decodeX w = .legal (.wrblk (w.extractLsb' 34 4).toFin (w.extractLsb' 0 32))) ∧
    ((w &&& 0x1E300000000 = 0x08000000000) → decodeX w = .legal (.rddig (w.extractLsb' 34 3).toFin)) ∧
    ((w &&& 0x1FF00000000 = 0x00400000000) → decodeX w = .legal .rdstat) ∧
    ((∀ r ∈ xTable, r.selects w = false) → ∃ c, decodeX w = .illegal c) ∧
    (∀ r ∈ xTable, ∀ r' ∈ xTable, r.selects w = true → r'.selects w = true → r = r') ∧
    (xTable.map fun r => (r.mask, r.value)) =
      [(0x1FFFFFFFFFF, 0x10000000000), (0x1FFFFFFFFFF, 0x10000000001), (0x1FFFFFFFFFF, 0x10000000002),
        (0x1FFFFFFFFFF, 0x10000000003), (0x1C300000000, 0x14000000000), (0x1E300000000, 0x08000000000),
        (0x1FF00000000, 0x00400000000)]

/-- R77: the same for the control words; the word 0 is IDLE and every word that no row selects is unreachable. -/
def Obligations.MicroRowsDecodeAsTabled : Prop :=
  ∀ u : BitVec 9,
    ((u &&& 0x1F0 = 0x040) → decodeU u = .op (.ldw (u.extractLsb' 0 4).toFin)) ∧
    ((u &&& 0x1C0 = 0x040) → u.extractLsb' 4 2 ≠ 0 → decodeU u = .op (.exp (u.extractLsb' 0 6).toFin)) ∧
    ((u &&& 0x1FF = 0x080) → decodeU u = .op .wsinit) ∧
    ((u &&& 0x1C0 = 0x0C0) → decodeU u = .op (.rnd (u.extractLsb' 0 6).toFin)) ∧
    ((u &&& 0x1FF = 0x100) → decodeU u = .op .acc) ∧
    ((u &&& 0x1FF = 0x140) → decodeU u = .op .ser) ∧
    ((u &&& 0x1FF = 0x180) → decodeU u = .op .hinit) ∧
    (u = 0 → decodeU u = .idle) ∧
    (u ≠ 0 → (∀ r ∈ uTable, r.selects u = false) → decodeU u = .unreachable)

/-- R78: the classes of illegal words, in terms of the number X = WR·2^40 + ADDR·2^32 + WDATA, the fault each raises,
and that a word of no class is a transaction. -/
def Obligations.IllegalWordsClassified : Prop :=
  ∀ w : BitVec 41,
    let wr := w.toNat / 2 ^ 40
    let a := w.toNat / 2 ^ 32 % 2 ^ 8
    let d := w.toNat % 2 ^ 32
    (a % 4 ≠ 0 → decodeX w = .illegal .misaligned ∧ errorOf .misaligned = .addrError) ∧
    (a % 4 = 0 → (0x08 ≤ a ∧ a ≤ 0x3C) ∨ (0xA0 ≤ a ∧ a ≤ 0xFC) →
      decodeX w = .illegal .reserved ∧ errorOf .reserved = .addrError) ∧
    (wr = 0 → a = 0x00 → decodeX w = .illegal .readCtrl ∧ errorOf .readCtrl = .addrError) ∧
    (wr = 1 → a = 0x04 → decodeX w = .illegal .writeStatus ∧ errorOf .writeStatus = .addrError) ∧
    (wr = 0 → a % 4 = 0 → 0x40 ≤ a → a ≤ 0x7C →
      decodeX w = .illegal .readBlock ∧ errorOf .readBlock = .addrError) ∧
    (wr = 1 → a % 4 = 0 → 0x80 ≤ a → a ≤ 0x9C →
      decodeX w = .illegal .writeDigest ∧ errorOf .writeDigest = .addrError) ∧
    (wr = 1 → a = 0x00 → 0x00000004 ≤ d →
      decodeX w = .illegal .reservedCommand ∧ errorOf .reservedCommand = .cmdError) ∧
    ((wr = 1 ∧ a = 0x00 ∧ d < 4) ∨ (wr = 0 ∧ a = 0x04) ∨ (wr = 1 ∧ a % 4 = 0 ∧ 0x40 ≤ a ∧ a ≤ 0x7C) ∨
      (wr = 0 ∧ a % 4 = 0 ∧ 0x80 ≤ a ∧ a ≤ 0x9C) → ∃ i, decodeX w = .legal i)

/-- A few words written out from R76 and R77 (95_test_vectors.md V50, V13). -/
def Obligations.WrittenOutWordsDecode : Prop :=
  decodeTableWord 48 0x10000000000 = some .nop ∧
  decodeTableWord 48 0x17c00000018 = some (.wrblk 15 0x00000018) ∧
  decodeTableWord 48 0x09c00000000 = some (.rddig 7) ∧
  decodeTableWord 48 0x004deadbeef = some .rdstat ∧
  decodeTableWord 48 0x14100000000 = none ∧
  decodeTableWord 16 0x04f = some (.ldw 15) ∧
  decodeTableWord 16 0x050 = some (.exp 16) ∧
  decodeTableWord 16 0x0c1 = some (.rnd 1) ∧
  decodeTableWord 16 0x180 = some .hinit ∧
  decodeTableWord 16 0x1c0 = none

/-! ## The step (00_scope.md R11, 20_memory.md, 44_host_commands.md) -/

/-- The engine's step: with a micro-operation in the micro-PC and the host kept off for it, the step is that
micro-operation's meaning; around it only the waiting time of the event at the port passes. -/
def Obligations.EngineStepRunsItsControlWord : Prop :=
  ∀ (s : State) (i : Instr), decodeU s.upc = .op i → s.undisturbed 1 →
    step s = exec i { s with port := elapsedPort 1 s.port }

/-- The host's step: a legal word at the port that is accepted is run by its instruction's meaning on the state as it
is. It is accepted while ph = 0, RDSTAT always; it is its turn when its wait is over or the engine has no step. -/
def Obligations.HostStepRunsItsTransaction : Prop :=
  ∀ (s : State) (r : Request) (rest : List Request) (w : BitVec 41) (i : Instr),
    s.port = r :: rest → r.ev = .txn w → decodeX w = .legal i →
    s.ph = Phase.idle ∨ i = .rdstat →
    r.wait = 0 ∨ (∀ j, decodeU s.upc ≠ .op j) →
    step s = exec i s

/-- R157: every word but RDSTAT is held while ph is not 0. The instruction's meaning then has no effect and gives no
response; the machine's step is the engine's, and the word stays at the port. -/
def Obligations.TransactionsAreHeldWhileBusy : Prop :=
  (∀ (s : State) (i : Instr), i.isTransaction = true → i ≠ .rdstat → s.ph ≠ Phase.idle → exec i s = .next s) ∧
  ∀ (s : State) (r : Request) (rest : List Request) (w : BitVec 41) (i : Instr),
    s.port = r :: rest → r.ev = .txn w → decodeX w ≠ .legal .rdstat → decodeU s.upc = .op i →
    step s = exec i { s with port := { r with wait := r.wait - 1 } :: rest }

/-- An idle engine with nothing at its port stays as it is. That the machine then steps to the same state and does not
stop is the model's choice (log entry 4); R213 says that an idle engine has no step and that nothing but the next
transaction wakes it. -/
def Obligations.IdleEngineRests : Prop :=
  ∀ s : State, s.port = [] → s.upc = U.mk 0 0 → step s = .next s

/-- R79: a control word that no rule produces has no step. The state is stuck while no event at the port can be taken,
BUSY reads 1 where ph is not 0, and a held word waits. -/
def Obligations.UnreachableControlWordIsStuck : Prop :=
  ∀ s : State, s.ph = 7 ∨ (s.t ≠ 0 ∧ (s.ph = 0 ∨ s.ph = 2 ∨ s.ph = 4 ∨ s.ph = 5 ∨ s.ph = 6)) →
    decodeU s.upc = .unreachable ∧
    (s.port = [] → step s = .fault .stuck) ∧
    (s.ph ≠ 0 → s.busy = true ∧
      ∀ (r : Request) (rest : List Request) (w : BitVec 41),
        s.port = r :: rest → r.ev = .txn w → decodeX w ≠ .legal .rdstat → step s = .fault .stuck)

/-! ## Host transactions (44_host_commands.md) -/

/-- R150: NOP, the word 0x10000000000, answers (OK, 0) and changes no state of the engine; it is held while ph is not
0. -/
def Obligations.NopAnswersOkAndChangesNothing : Prop :=
  decodeX 0x10000000000 = .legal .nop ∧ ∀ s : State,
    (s.ph = Phase.idle →
      exec .nop s = .next { s with port := s.port.tail, responses := s.responses ++ [⟨.ok, 0⟩] }) ∧
    (s.ph ≠ Phase.idle → exec .nop s = .next s)

/-- R151: INIT, the word 0x10000000001, clears DV, starts HINIT and changes nothing else. -/
def Obligations.InitStartsHashInitialisation : Prop :=
  decodeX 0x10000000001 = .legal .init ∧ ∀ s : State, s.ph = Phase.idle →
    exec .init s = .next { s with
      DV := false
      upc := U.mk 6 0
      port := s.port.tail
      responses := s.responses ++ [⟨.ok, 0⟩] }

/-- R152: COMPRESS, the word 0x10000000002, with INITD = 1 and all of BV set, clears DV, starts LDW 0 and changes nothing
else. -/
def Obligations.CompressStartsTheSchedule : Prop :=
  decodeX 0x10000000002 = .legal .compress ∧ ∀ s : State, s.ph = Phase.idle → s.INITD = true → s.BV = 0xFFFF →
    exec .compress s = .next { s with
      DV := false
      upc := U.mk 1 0
      port := s.port.tail
      responses := s.responses ++ [⟨.ok, 0⟩] }

/-- R153: DIGEST, the word 0x10000000003, with INITD = 1, starts SER and changes nothing else, DV included. -/
def Obligations.DigestStartsTheSerializer : Prop :=
  decodeX 0x10000000003 = .legal .digest ∧ ∀ s : State, s.ph = Phase.idle → s.INITD = true →
    exec .digest s = .next { s with
      upc := U.mk 5 0
      port := s.port.tail
      responses := s.responses ++ [⟨.ok, 0⟩] }

/-- R154: WRBLK, the word 0x14000000000 + i·2^34 + v, stores v big-endian at 0x40 + 4i, sets BV[i], and changes no other
byte, bit or register. -/
def Obligations.WrblkStoresOneBlockWord : Prop :=
  ∀ (s : State) (i : Fin 16) (v : Word),
    decodeX (BitVec.ofNat 41 (0x14000000000 + i.val * 2 ^ 34 + v.toNat)) = .legal (.wrblk i v) ∧
    (s.ph = Phase.idle → ∃ t, exec (.wrblk i v) s = .next t ∧
      t.readByte (0x40 + 4 * i.val) = v.extractLsb' 24 8 ∧
      t.readByte (0x40 + 4 * i.val + 1) = v.extractLsb' 16 8 ∧
      t.readByte (0x40 + 4 * i.val + 2) = v.extractLsb' 8 8 ∧
      t.readByte (0x40 + 4 * i.val + 3) = v.extractLsb' 0 8 ∧
      (∀ a, a < 0x40 + 4 * i.val ∨ 0x40 + 4 * i.val + 4 ≤ a → t.readByte a = s.readByte a) ∧
      (∀ n, n < 16 → t.BV.getLsbD n = (decide (n = i.val) || s.BV.getLsbD n)) ∧
      t = { s with
        mem := t.mem
        BV := t.BV
        port := s.port.tail
        responses := s.responses ++ [⟨.ok, 0⟩] })

/-- R155: RDDIG, the word 0x08000000000 + j·2^34, raises SeqError where DV = 0; where DV = 1 it answers the four digest
bytes from 0x80 + 4j, most significant first, and changes no state of the engine. -/
def Obligations.RddigAnswersOneDigestWord : Prop :=
  ∀ (s : State) (j : Fin 8),
    decodeX (BitVec.ofNat 41 (0x08000000000 + j.val * 2 ^ 34)) = .legal (.rddig j) ∧
    (s.ph = Phase.idle →
      (s.DV = true → exec (.rddig j) s = .next { s with
        port := s.port.tail
        responses := s.responses ++ [⟨.ok,
          be32 (s.readByte (0x80 + 4 * j.val)) (s.readByte (0x80 + 4 * j.val + 1)) (s.readByte (0x80 + 4 * j.val + 2))
            (s.readByte (0x80 + 4 * j.val + 3))⟩] }) ∧
      (s.DV = false → exec (.rddig j) s = .next { s with
        E_SEQ := true
        port := s.port.tail
        responses := s.responses ++ [⟨.err, 0⟩] }))

/-- R155, with R30: where the invariants hold, what RDDIG answers is H[j]. -/
def Obligations.RddigAnswersTheHashWord : Prop :=
  ∀ (s : State) (j : Fin 8), Invariants s → s.ph = Phase.idle → s.DV = true →
    exec (.rddig j) s = .next { s with
      port := s.port.tail
      responses := s.responses ++ [⟨.ok, s.H.get j⟩] }

/-- R156 and R33: RDSTAT, the word 0x00400000000, completes in every state, busy or not, changes no state of the engine,
and answers the status word, each of whose bits is as the table of R33 says. -/
def Obligations.RdstatAnswersTheStatusWord : Prop :=
  decodeX 0x00400000000 = .legal .rdstat ∧ ∀ s : State, ∃ d : Word,
    exec .rdstat s = .next { s with port := s.port.tail, responses := s.responses ++ [⟨.ok, d⟩] } ∧
    d.getLsbD 0 = decide (s.ph ≠ 0) ∧ d.getLsbD 1 = s.INITD ∧ d.getLsbD 2 = s.DV ∧
    d.getLsbD 3 = decide (s.BV = 0xFFFF) ∧ d.getLsbD 4 = s.E_ADDR ∧ d.getLsbD 5 = s.E_CMD ∧
    d.getLsbD 6 = s.E_SEQ ∧ (∀ n, 7 ≤ n → n ≤ 15 → d.getLsbD n = false) ∧
    ∀ i, i < 16 → d.getLsbD (16 + i) = s.BV.getLsbD i

/-- R156: while a COMPRESS runs and no fault has occurred, every status read returns 0xFFFF000B. -/
def Obligations.StatusReadsBusyWhileCompressing : Prop :=
  ∀ s : State, Invariants s → s.compressing → s.E_ADDR = false → s.E_CMD = false → s.E_SEQ = false →
    exec .rdstat s = .next { s with port := s.port.tail, responses := s.responses ++ [⟨.ok, 0xFFFF000B⟩] }

/-- R154 with R121: the value written as block word i is the schedule word that LDW i loads. -/
def Obligations.WrittenWordIsLoadedAsScheduleWord : Prop :=
  ∀ (s : State) (i : Fin 16) (v : Word), s.ph = Phase.idle →
    ∃ t u, exec (.wrblk i v) s = .next t ∧ exec (.ldw i) t = .next u ∧ u.W.get ⟨i.val, by omega⟩ = v

/-! ## Micro-operations (41_schedule.md, 42_compression.md, 43_init_and_serializer.md) -/

/-- R121: LDW t loads word t of the block buffer, big-endian, into W[t], moves upc to (1, t + 1), and changes nothing
else; its control word is 0x040 + t. -/
def Obligations.LdwLoadsOneScheduleWord : Prop :=
  ∀ (s : State) (t : Fin 16),
    decodeU (BitVec.ofNat 9 (0x040 + t.val)) = .op (.ldw t) ∧
    ∃ u, exec (.ldw t) s = .next u ∧
      u.W.get ⟨t.val, by omega⟩ =
        be32 (s.readByte (0x40 + 4 * t.val)) (s.readByte (0x40 + 4 * t.val + 1)) (s.readByte (0x40 + 4 * t.val + 2))
          (s.readByte (0x40 + 4 * t.val + 3)) ∧
      (∀ k : Fin 64, k.val ≠ t.val → u.W.get k = s.W.get k) ∧
      u = { s with W := u.W, upc := U.mk 1 (BitVec.ofNat 6 (t.val + 1)) }

/-- R122: EXP t, for every t in 16..63, writes the recurrence into W[t], moves upc to (1, t + 1), or to (2, 0) for
t = 63, and changes nothing else; its control word is 0x040 + t. -/
def Obligations.ExpExpandsOneScheduleWord : Prop :=
  ∀ (s : State) (t : Fin 64), (ht : 16 ≤ t.val) →
    decodeU (BitVec.ofNat 9 (0x040 + t.val)) = .op (.exp t) ∧
    ∃ u, exec (.exp t) s = .next u ∧
      u.W.get t = sum32 [s.W.get ⟨t.val - 16, by omega⟩, ssig0 (s.W.get ⟨t.val - 15, by omega⟩),
        s.W.get ⟨t.val - 7, by omega⟩, ssig1 (s.W.get ⟨t.val - 2, by omega⟩)] ∧
      (∀ k : Fin 64, k ≠ t → u.W.get k = s.W.get k) ∧
      u = { s with
        W := u.W
        upc := if t.val < 63 then U.mk 1 (BitVec.ofNat 6 (t.val + 1)) else U.mk 2 0 }

/-- R132: WSINIT, the control word 0x080, copies H into a..h, moves upc to (3, 0), and changes nothing else. -/
def Obligations.WsinitCopiesTheHashState : Prop :=
  decodeU 0x080 = .op .wsinit ∧ ∀ s : State, exec .wsinit s = .next { s with ws := s.H, upc := U.mk 3 0 }

/-- R133: RND t is one round, every new register from the old values; upc moves to (3, t + 1), or to (4, 0) for t = 63;
nothing else changes. -/
def Obligations.RndIsOneRound : Prop :=
  ∀ (s : State) (t : Fin 64),
    let T1 := sum32 [s.ws.get 7, bsig1 (s.ws.get 4), Ch (s.ws.get 4) (s.ws.get 5) (s.ws.get 6), K t, s.W.get t]
    let T2 := add32 (bsig0 (s.ws.get 0)) (Maj (s.ws.get 0) (s.ws.get 1) (s.ws.get 2))
    decodeU (BitVec.ofNat 9 (0x0C0 + t.val)) = .op (.rnd t) ∧
    ∃ u, exec (.rnd t) s = .next u ∧
      u.ws.get 0 = add32 T1 T2 ∧ u.ws.get 1 = s.ws.get 0 ∧ u.ws.get 2 = s.ws.get 1 ∧ u.ws.get 3 = s.ws.get 2 ∧
      u.ws.get 4 = add32 (s.ws.get 3) T1 ∧ u.ws.get 5 = s.ws.get 4 ∧ u.ws.get 6 = s.ws.get 5 ∧
      u.ws.get 7 = s.ws.get 6 ∧
      u = { s with
        ws := u.ws
        upc := if t.val < 63 then U.mk 3 (BitVec.ofNat 6 (t.val + 1)) else U.mk 4 0 }

/-- R134: ACC, the control word 0x100, adds a..h into H element by element, clears BV, moves upc to IDLE, and changes
nothing else. That W and ws keep their values is allowed by D18 and is the model's choice (log entry 5). -/
def Obligations.AccAddsTheBlockResult : Prop :=
  decodeU 0x100 = .op .acc ∧ ∀ s : State, ∃ u, exec .acc s = .next u ∧
    (∀ i : Fin 8, (u.H.get i).toNat = ((s.H.get i).toNat + (s.ws.get i).toNat) % 2 ^ 32) ∧
    u = { s with H := u.H, BV := 0, upc := U.mk 0 0 }

/-- R145, R26: HINIT, the control word 0x180, loads H with the eight initial values, sets INITD, moves upc to IDLE, and
changes nothing else. The eight values printed here are R26's, which the spec takes from general knowledge: PRESUMED, log
entry 9. -/
def Obligations.HinitLoadsTheInitialValues : Prop :=
  decodeU 0x180 = .op .hinit ∧ ∀ s : State, exec .hinit s = .next { s with
    H := #v[0x6a09e667, 0xbb67ae85, 0x3c6ef372, 0xa54ff53a, 0x510e527f, 0x9b05688c, 0x1f83d9ab, 0x5be0cd19]
    INITD := true
    upc := U.mk 0 0 }

/-- R147: SER, the control word 0x140, writes the 32 digest bytes from H, most significant first, sets DV, moves upc to
IDLE, and changes no other byte and no register. -/
def Obligations.SerWritesTheDigest : Prop :=
  decodeU 0x140 = .op .ser ∧ ∀ s : State, ∃ u, exec .ser s = .next u ∧
    (∀ (i : Fin 8) (k : Fin 4), u.readByte (0x80 + 4 * i.val + k.val) = (s.H.get i).extractLsb' (24 - 8 * k.val) 8) ∧
    u.dig = serialize s.H ∧
    (∀ a, a < 0x80 ∨ 0xA0 ≤ a → u.readByte a = s.readByte a) ∧
    u = { s with mem := u.mem, DV := true, upc := U.mk 0 0 }

/-- R200: a micro-operation raises no exception: it completes, gives no response, takes nothing from the port and leaves
the three fault flags alone. -/
def Obligations.MicroOperationsRaiseNothing : Prop :=
  ∀ (s : State) (i : Instr), i.wf = true → i.isTransaction = false →
    ∃ u, exec i s = .next u ∧ u.E_ADDR = s.E_ADDR ∧ u.E_CMD = s.E_CMD ∧ u.E_SEQ = s.E_SEQ ∧
      u.port = s.port ∧ u.responses = s.responses ∧ u.epoch = s.epoch

/-- R165: the next-state function of the micro-PC, row by row: the engine's steps with the host kept off, and the
transactions accepted in IDLE, those that raise a fault included. -/
def Obligations.MicroPcFollowsItsTable : Prop :=
  (∀ (s : State) (n : Nat), s.undisturbed 1 →
    (s.upc = U.mk 1 (BitVec.ofNat 6 n) → n < 63 → ∃ u, step s = .next u ∧ u.upc = U.mk 1 (BitVec.ofNat 6 (n + 1))) ∧
    (s.upc = U.mk 1 63 → ∃ u, step s = .next u ∧ u.upc = U.mk 2 0) ∧
    (s.upc = U.mk 2 0 → ∃ u, step s = .next u ∧ u.upc = U.mk 3 0) ∧
    (s.upc = U.mk 3 (BitVec.ofNat 6 n) → n < 63 → ∃ u, step s = .next u ∧ u.upc = U.mk 3 (BitVec.ofNat 6 (n + 1))) ∧
    (s.upc = U.mk 3 63 → ∃ u, step s = .next u ∧ u.upc = U.mk 4 0) ∧
    (s.upc = U.mk 4 0 ∨ s.upc = U.mk 5 0 ∨ s.upc = U.mk 6 0 → ∃ u, step s = .next u ∧ u.upc = U.mk 0 0)) ∧
  ∀ (s : State) (r : Request) (rest : List Request) (w : BitVec 41),
    s.upc = U.mk 0 0 → s.port = r :: rest → r.ev = .txn w →
    ∃ u, step s = .next u ∧ u.upc =
      (match decodeX w with
        | .legal .init => U.mk 6 0
        | .legal .compress => if s.INITD = true ∧ s.BV = 0xFFFF then U.mk 1 0 else U.mk 0 0
        | .legal .digest => if s.INITD = true then U.mk 5 0 else U.mk 0 0
        | _ => U.mk 0 0)

/-! ## Faults (60_exceptions.md) -/

/-- R159, with R208: an illegal word is accepted in a state with ph = 0: it raises the fault of its class, is answered
(ERR, 0), and changes nothing but the one sticky flag; while the engine runs it is held. -/
def Obligations.IllegalWordSetsOneFlag : Prop :=
  ∀ (s : State) (r : Request) (rest : List Request) (w : BitVec 41) (c : IllegalClass),
    s.port = r :: rest → r.ev = .txn w → decodeX w = .illegal c →
    (s.ph = Phase.idle → step s = .next { s with
      E_ADDR := s.E_ADDR || decide (errorOf c = .addrError)
      E_CMD := s.E_CMD || decide (errorOf c = .cmdError)
      port := rest
      responses := s.responses ++ [⟨.err, 0⟩] }) ∧
    ∀ i, decodeU s.upc = .op i → step s = exec i { s with port := { r with wait := r.wait - 1 } :: rest }

/-- R204: COMPRESS, DIGEST and RDDIG, accepted in a state that does not support them, set E_SEQ, are answered (ERR, 0),
and change nothing else. -/
def Obligations.SeqErrorWhereStateIsNotValid : Prop :=
  ∀ (s : State), s.ph = Phase.idle →
    let seqError : State :=
      { s with E_SEQ := true, port := s.port.tail, responses := s.responses ++ [⟨.err, 0⟩] }
    (s.INITD = false ∨ s.BV ≠ 0xFFFF → exec .compress s = .next seqError) ∧
    (s.INITD = false → exec .digest s = .next seqError) ∧
    ∀ j, s.DV = false → exec (.rddig j) s = .next seqError

/-- R210, R31: no step clears a fault flag but a reset, and a reset clears all three. -/
def Obligations.FaultFlagsAreSticky : Prop :=
  ∀ s t : State, step s = .next t →
    (¬ s.resetsNext → (s.E_ADDR = true → t.E_ADDR = true) ∧ (s.E_CMD = true → t.E_CMD = true) ∧
      (s.E_SEQ = true → t.E_SEQ = true)) ∧
    (s.resetsNext → t.E_ADDR = false ∧ t.E_CMD = false ∧ t.E_SEQ = false)

/-! ## Reset (70_reset_and_hazards.md) -/

/-- R230, R231, R233: reset, in any state and while a sequence runs, gives an IDLE engine with every flag 0; it gives no
response, and what the host side has still to present is then presented to it. The registers and buffers are
unspecified, so nothing is said of them. -/
def Obligations.ResetGivesIdleWithFlagsClear : Prop :=
  (∀ (s : State) (r : Request) (rest : List Request), s.port = r :: rest → r.ev = .reset →
    r.wait = 0 ∨ (∀ i, decodeU s.upc ≠ .op i) →
    ∃ t, step s = .next t ∧ t.upc = U.mk 0 0 ∧ t.INITD = false ∧ t.DV = false ∧ t.BV = 0 ∧
      t.E_ADDR = false ∧ t.E_CMD = false ∧ t.E_SEQ = false ∧ t.statusWord = 0 ∧
      t.port = rest ∧ t.responses = s.responses) ∧
  State.reset.upc = U.mk 0 0 ∧ State.reset.statusWord = 0

/-- R39: the invariants hold at reset. -/
def Obligations.InvariantsHoldAtReset : Prop := Invariants State.reset

/-! ## Invariants (10_state.md R39) -/

/-- R39: every step, of the engine, of the host and reset, from any state that meets the invariants keeps them. -/
def Obligations.EveryStepKeepsTheInvariants : Prop :=
  ∀ s t : State, Invariants s → step s = .next t → Invariants t

/-- Every step keeps the canonical form of memory: only addresses of the two buffers (R35, R56) are listed, and they
strictly rise. That the buffers are a list with rising addresses is the model's own representation: DESIGN CHOICE, log
entry 2. -/
def Obligations.EveryStepKeepsMemoryCanonical : Prop :=
  ∀ s t : State, s.mem.wf → step s = .next t → t.mem.wf

/-- R27, R39 (I1): the micro-PC stays a control word that some rule produces. -/
def Obligations.EveryStepKeepsTheMicroPcLegal : Prop :=
  ∀ s t : State, legalUpc s.upc → step s = .next t → legalUpc t.upc

/-- R79, R168: a state that meets the invariants never stops: the machine has a next state. For an IDLE engine with an
empty port this is the model's choice, the unchanged state (DESIGN CHOICE, log entry 4): R11 and R213 give such an engine
no step. -/
def Obligations.InvariantStatesNeverStop : Prop :=
  ∀ s : State, Invariants s → ∃ t, step s = .next t

/-- R20, R29: which steps change H: HINIT, ACC and reset, and none other. -/
def Obligations.OnlyHinitAccAndResetWriteH : Prop :=
  ∀ s t : State, step s = .next t → s.upc ≠ U.mk 6 0 → s.upc ≠ U.mk 4 0 → ¬ s.resetsNext → t.H = s.H

/-! ## Runs of the engine (41_schedule.md, 42_compression.md, 44_host_commands.md) -/

/-- R123: from (1, 0) the engine takes 64 steps to (2, 0), with W the schedule of the block buffer, and changes nothing
else. -/
def Obligations.SchedulePhaseComputesSched : Prop :=
  ∀ s : State, s.upc = U.mk 1 0 → s.undisturbed 64 →
    steps 64 s = .next { s with
      W := sched s.block
      upc := U.mk 2 0
      port := elapsedPort 64 s.port }

/-- R136: from (1, 0) the engine takes 130 steps to IDLE, with H = compress(H, BLK), BV = 0, and INITD, DV, the fault
flags, BLK and DIG unchanged. That W and ws still hold the schedule and the last working state after ACC is the model's
choice (DESIGN CHOICE, log entry 5): D18 leaves them open. -/
def Obligations.CompressRunComputesCompress : Prop :=
  ∀ s : State, s.upc = U.mk 1 0 → s.undisturbed 130 →
    steps 130 s = .next { s with
      H := compress s.H s.block
      W := sched s.block
      ws := rounds s.H (sched s.block) 64
      BV := 0
      upc := U.mk 0 0
      port := elapsedPort 130 s.port }

/-- R166: from every legal busy control word the engine is IDLE after exactly the number of steps R166 gives, whatever
the data. -/
def Obligations.EngineIsIdleAfterItsStepCount : Prop :=
  ∀ (s : State) (n c : Nat), s.undisturbed c →
    (s.upc = U.mk 1 (BitVec.ofNat 6 n) ∧ n < 64 ∧ c = 130 - n) ∨ (s.upc = U.mk 2 0 ∧ c = 66) ∨
      (s.upc = U.mk 3 (BitVec.ofNat 6 n) ∧ n < 64 ∧ c = 65 - n) ∨
      ((s.upc = U.mk 4 0 ∨ s.upc = U.mk 5 0 ∨ s.upc = U.mk 6 0) ∧ c = 1) →
    (∃ t, steps c s = .next t ∧ t.upc = U.mk 0 0) ∧
    ∀ k, k < c → ∃ t, steps k s = .next t ∧ t.ph ≠ 0

/-- R167: a command accepted in IDLE, and the engine steps it starts, come to the big-step transition of the command, but
for W and ws, which nothing reads. -/
def Obligations.CommandsMatchTheBigStepView : Prop :=
  ∀ (s : State) (r : Request) (rest : List Request), s.upc = U.mk 0 0 → s.port = r :: rest →
    (r.ev = .txn 0x10000000001 → quietPort rest 1 →
      steps 2 s = .next { bigInit s with port := elapsedPort 1 rest }) ∧
    (r.ev = .txn 0x10000000002 → s.INITD = true ∧ s.BV = 0xFFFF → quietPort rest 130 →
      ∃ t, steps 131 s = .next t ∧
        SameButScratch { bigCompress s with port := elapsedPort 130 rest } t) ∧
    (r.ev = .txn 0x10000000002 → ¬ (s.INITD = true ∧ s.BV = 0xFFFF) →
      steps 1 s = .next (bigCompress s)) ∧
    (r.ev = .txn 0x10000000003 → s.INITD = true → quietPort rest 1 →
      steps 2 s = .next { bigDigest s with port := elapsedPort 1 rest }) ∧
    (r.ev = .txn 0x10000000003 → s.INITD = false →
      steps 1 s = .next (bigDigest s))

/-- R36, R124, R126: what W, ws and the digest buffer hold when a COMPRESS starts cannot influence its result: two
engines that agree on H and on the block buffer agree on H after it, whatever else they hold. -/
def Obligations.CompressResultIgnoresOldScratch : Prop :=
  ∀ s t : State, s.upc = U.mk 1 0 → t.upc = U.mk 1 0 → s.H = t.H →
    (∀ k, k < 64 → s.readByte (0x40 + k) = t.readByte (0x40 + k)) → s.undisturbed 130 → t.undisturbed 130 →
    ∃ s' t', steps 130 s = .next s' ∧ steps 130 t = .next t' ∧
      s'.H = t'.H ∧ s'.upc = U.mk 0 0 ∧ t'.upc = U.mk 0 0

/-- R177, with R175, R176 and the counts of R243: from any IDLE state, whatever its history, the driver of R175, its
transactions presented after any waits, has every one answered OK, ends finished with no fault flag touched, and the 32
bytes it returns are sha256(M). It takes 10 + 17n transactions and 2 + 130n engine steps for n blocks. The model's
choices: the words of a block and of the digest go in increasing order, where R175 allows any (log entry 14); the waits
are the interleaving as data (log entry 3), and fairness is built in, since a wait is a finite number (log entry 16). -/
def Obligations.DriverReturnsTheDigest : Prop :=
  ∀ (M : Message) (ls : List Line) (D : Vector Byte 32) (waits : List Nat) (s : State),
    driver M = .ok ls → sha256 M = .ok D → s.upc = U.mk 0 0 → s.port = requestsOf waits ls →
    let n := blockCount (pad M)
    ∃ (t : State) (rs : List Response),
      steps ((10 + 17 * n) + (2 + 130 * n)) s = .next t ∧ t.finished ∧
      t.responses = s.responses ++ rs ∧ rs.length = 10 + 17 * n ∧ (∀ r ∈ rs, r.resp = .ok) ∧
      digestOf rs = D.toList ∧
      t.E_ADDR = s.E_ADDR ∧ t.E_CMD = s.E_CMD ∧ t.E_SEQ = s.E_SEQ

/-! ## The functions (41_schedule.md, 43_init_and_serializer.md, 45_host_framing.md) -/

/-- R120: the first sixteen schedule words are the block's words, big-endian; the others obey the recurrence. -/
def Obligations.ScheduleObeysItsRecurrence : Prop :=
  ∀ (B : Block) (t : Fin 64),
    ((h : t.val < 16) → (sched B).get t =
      be32 (B.get ⟨4 * t.val, by omega⟩) (B.get ⟨4 * t.val + 1, by omega⟩) (B.get ⟨4 * t.val + 2, by omega⟩)
        (B.get ⟨4 * t.val + 3, by omega⟩)) ∧
    ((h : 16 ≤ t.val) → (sched B).get t =
      sum32 [(sched B).get ⟨t.val - 16, by omega⟩, ssig0 ((sched B).get ⟨t.val - 15, by omega⟩),
        (sched B).get ⟨t.val - 7, by omega⟩, ssig1 ((sched B).get ⟨t.val - 2, by omega⟩)])

/-- R146: serialize writes each word's bytes most significant first, in word order, and is a bijection. -/
def Obligations.SerializeIsABijection : Prop :=
  (∀ (Hv : Vector Word 8) (i : Fin 8) (k : Fin 4),
    (serialize Hv).get ⟨4 * i.val + k.val, by omega⟩ = (Hv.get i).extractLsb' (24 - 8 * k.val) 8) ∧
  Function.Bijective serialize

/-- R172, R173: the padded message begins with the message and 0x80, ends with the bit length as a big-endian 64-bit
number, has the fewest zero bytes between that make its length a multiple of 64, and has the block count of R173. -/
def Obligations.PaddingFillsWholeBlocks : Prop :=
  ∀ M : Message, M.length < 2 ^ 61 →
    (pad M).take M.length = M ∧ (pad M)[M.length]? = some 0x80 ∧
    (pad M).length % 64 = 0 ∧ M.length + 9 ≤ (pad M).length ∧ (pad M).length < M.length + 9 + 64 ∧
    (∀ n, M.length < n → n + 8 < (pad M).length → (pad M)[n]? = some 0) ∧
    (∀ k, k < 8 → ∃ b, (pad M)[(pad M).length - 8 + k]? = some b ∧ b.toNat = 8 * M.length / 2 ^ (8 * (7 - k)) % 256) ∧
    blockCount (pad M) = (M.length + 8) / 64 + 1

/-- R173: padding is injective on the messages that pass the length check. -/
def Obligations.PaddingIsInjective : Prop :=
  ∀ M N : Message, M.length < 2 ^ 61 → N.length < 2 ^ 61 → pad M = pad N → M = N

/-- R171, R176: a message of 2^61 bytes or more is LengthOverflow, with no transaction; any other has a digest. -/
def Obligations.LengthOverflowExactlyFromTheLimit : Prop :=
  ∀ M : Message,
    (2 ^ 61 ≤ M.length → sha256 M = .error .lengthOverflow ∧ driver M = .error .lengthOverflow) ∧
    (M.length < 2 ^ 61 → (∃ D, sha256 M = .ok D) ∧ ∃ ls, driver M = .ok ls)

/-- R178: the hexadecimal form has two digits a byte from the lower-case alphabet, high digit first, and the form of a
message's digest is the 64 digits of sha256 of it. -/
def Obligations.HexFormHasTwoDigitsAByte : Prop :=
  (∀ D : List Byte, (hex D).length = 2 * D.length ∧ (∀ c ∈ hex D, c ∈ "0123456789abcdef".toList) ∧
    ∀ (k : Nat) (h : k < D.length),
      (hex D)[2 * k]? = "0123456789abcdef".toList[D[k].toNat / 16]? ∧
      (hex D)[2 * k + 1]? = "0123456789abcdef".toList[D[k].toNat % 16]?) ∧
  ∀ (M : Message) (cs : List Char), hexDigest M = .ok cs →
    cs.length = 64 ∧ ∃ D, sha256 M = .ok D ∧ cs = hex D.toList
end

