-- ==== Sys2Proof/Laws/Decode.lean ====
section
/-! SUPPORT. The fields of a word that was put together from fields, and the words a control word can be. -/

namespace Sys2Proof

/-! ### Format X -/

@[simp] theorem X.wr_mk (wr : Bool) (a : BitVec 8) (d : Word) : X.wr (X.mk wr a d) = wr := by
  simp only [X.wr, X.mk, BitVec.getLsbD_append]
  cases wr <;> simp

@[simp] theorem X.addr_mk (wr : Bool) (a : BitVec 8) (d : Word) : X.addr (X.mk wr a d) = a := by
  ext i hi
  have h : 32 + i < 41 := by omega
  simp only [X.addr, X.mk, BitVec.getElem_extractLsb', BitVec.getLsbD_append]
  rw [if_neg (by omega), if_pos (by omega)]
  simp [BitVec.getLsbD_eq_getElem hi]

@[simp] theorem X.wdata_mk (wr : Bool) (a : BitVec 8) (d : Word) : X.wdata (X.mk wr a d) = d := by
  ext i hi
  simp only [X.wdata, X.mk, BitVec.getElem_extractLsb', BitVec.getLsbD_append, Nat.zero_add]
  rw [if_pos hi]
  exact BitVec.getLsbD_eq_getElem hi

/-- A word is made of its three fields (R70). -/
theorem X.eq_mk (w : BitVec 41) : w = X.mk (X.wr w) (X.addr w) (X.wdata w) := by
  ext i hi
  simp only [X.wr, X.addr, X.wdata, X.mk]
  rw [← BitVec.getLsbD_eq_getElem hi, ← BitVec.getLsbD_eq_getElem hi]
  simp only [BitVec.getLsbD_append, BitVec.getLsbD_extractLsb', BitVec.getLsbD_ofBool]
  split
  · next h => simp [h]
  · split
    · next h1 h2 => simp [h2, show 32 + (i - 32) = i by omega]
    · next h1 h2 => simp [show i = 40 by omega]

/-- A mask acts on each field (R76). -/
theorem X.mk_and (wr wr' : Bool) (a a' : BitVec 8) (d d' : Word) :
    X.mk wr a d &&& X.mk wr' a' d' = X.mk (wr && wr') (a &&& a') (d &&& d') := by
  apply BitVec.eq_of_getLsbD_eq
  intro i hi
  simp only [X.mk, BitVec.getLsbD_and, BitVec.getLsbD_append, BitVec.getLsbD_ofBool]
  split_ifs <;> try rfl
  cases decide (i - 32 - 8 = 0) <;> cases wr <;> cases wr' <;> rfl

/-- Two words are equal when their fields are. -/
theorem X.mk_inj {wr wr' : Bool} {a a' : BitVec 8} {d d' : Word} :
    X.mk wr a d = X.mk wr' a' d' ↔ wr = wr' ∧ a = a' ∧ d = d' := by
  constructor
  · intro h
    exact ⟨by simpa using congrArg X.wr h, by simpa using congrArg X.addr h, by simpa using congrArg X.wdata h⟩
  · rintro ⟨rfl, rfl, rfl⟩
    rfl

/-! ### Format U -/

@[simp] theorem U.ph_mk (p : BitVec 3) (t : BitVec 6) : U.ph (U.mk p t) = p := by
  ext i hi
  simp only [U.ph, U.mk, BitVec.getElem_extractLsb', BitVec.getLsbD_append]
  rw [if_neg (by omega)]
  simp [BitVec.getLsbD_eq_getElem hi]

@[simp] theorem U.t_mk (p : BitVec 3) (t : BitVec 6) : U.t (U.mk p t) = t := by
  ext i hi
  simp only [U.t, U.mk, BitVec.getElem_extractLsb', BitVec.getLsbD_append, Nat.zero_add]
  rw [if_pos hi]
  exact BitVec.getLsbD_eq_getElem hi

/-- A control word is made of its two fields (R72). -/
theorem U.eq_mk (u : BitVec 9) : u = U.mk (U.ph u) (U.t u) := by
  ext i hi
  simp only [U.ph, U.t, U.mk]
  rw [← BitVec.getLsbD_eq_getElem hi, ← BitVec.getLsbD_eq_getElem hi]
  simp only [BitVec.getLsbD_append, BitVec.getLsbD_extractLsb']
  split
  · next h => simp [h]
  · next h => simp [show i - 6 < 3 by omega, show 6 + (i - 6) = i by omega]

@[simp] theorem U.ph_upcAt (p : BitVec 3) (t : Nat) : U.ph (Machine.upcAt p t) = p := by
  simp [Machine.upcAt]

@[simp] theorem U.t_upcAt (p : BitVec 3) (t : Nat) : U.t (Machine.upcAt p t) = BitVec.ofNat 6 t := by
  simp [Machine.upcAt]

end Sys2Proof
end

