-- ==== Sys2Proof/Laws/Memory.lean ====
section
/-! SUPPORT. The laws of memory: a read after a write, and the canonical form, which every memory operation keeps. -/

namespace Sys2Proof.Machine

@[simp] theorem Memory.find_set_same (m : Memory) (a : Nat) (b : Byte) : (m.set a b).find a = some b := by
  induction m with
  | nil => simp [Memory.set, Memory.find]
  | cons c rest ih =>
    obtain ⟨k, v⟩ := c
    simp only [Memory.set]
    split
    · simp [Memory.find]
    · split
      · simp [Memory.find]
      · next h => simp [Memory.find, Ne.symm h, ih]

theorem Memory.find_set_of_ne (m : Memory) {a x : Nat} (b : Byte) (h : x ≠ a) : (m.set a b).find x = m.find x := by
  induction m with
  | nil => simp [Memory.set, Memory.find, Ne.symm h]
  | cons c rest ih =>
    obtain ⟨k, v⟩ := c
    simp only [Memory.set]
    split
    · simp [Memory.find, Ne.symm h]
    · split
      · next h2 => subst h2; simp [Memory.find, Ne.symm h]
      · simp [Memory.find, ih]

theorem Memory.mem_set {m : Memory} {a : Nat} {b : Byte} {c : Host.Cell} (h : c ∈ m.set a b) : c = (a, b) ∨ c ∈ m := by
  induction m with
  | nil => simpa [Memory.set] using h
  | cons d rest ih =>
    obtain ⟨k, v⟩ := d
    simp only [Memory.set] at h
    split at h
    · simpa using h
    · split at h
      · rcases List.mem_cons.mp h with h | h
        · exact .inl h
        · exact .inr (by simp [h])
      · rcases List.mem_cons.mp h with h | h
        · exact .inr (by simp [h])
        · exact (ih h).imp_right (by simp +contextual)

/-- One byte written inside the buffers keeps the canonical form. -/
theorem Memory.set_wf {m : Memory} {a : Nat} (b : Byte) (h : m.wf) (ha : Config.blkBase ≤ a ∧ a < Config.digEnd) :
    (m.set a b).wf := by
  obtain ⟨hp, hr⟩ := h
  refine ⟨?_, fun c hc => (Memory.mem_set hc).elim (fun e => e ▸ ha) (hr c)⟩
  clear hr
  induction m with
  | nil => simp [Memory.set]
  | cons d rest ih =>
    obtain ⟨k, v⟩ := d
    obtain ⟨hd, hrest⟩ := List.pairwise_cons.mp hp
    simp only [Memory.set]
    split
    · next hlt =>
      refine List.pairwise_cons.mpr ⟨fun c hc => ?_, hp⟩
      rcases List.mem_cons.mp hc with rfl | hc
      · exact hlt
      · exact Nat.lt_trans hlt (hd c hc)
    · split
      · next heq => subst heq; exact List.pairwise_cons.mpr ⟨hd, hrest⟩
      · next hge hne =>
        refine List.pairwise_cons.mpr ⟨fun c hc => ?_, ih hrest⟩
        rcases Memory.mem_set hc with rfl | hc
        · show k < a
          omega
        · exact hd c hc

theorem Memory.setWord_wf {m : Memory} {a : Nat} (v : Word) (h : m.wf)
    (ha : Config.blkBase ≤ a ∧ a + 3 < Config.digEnd) : (m.setWord a v).wf := by
  unfold Memory.setWord
  refine Memory.set_wf _ (Memory.set_wf _ (Memory.set_wf _ (Memory.set_wf _ h ?_) ?_) ?_) ?_ <;> omega

/-- What the four bytes of a written word hold. -/
theorem Memory.find_setWord_inside (m : Memory) (a : Nat) (v : Word) (k : Fin 4) :
    (m.setWord a v).find (a + k.val) = some (byteOf v k) := by
  unfold Memory.setWord
  match k with
  | 0 => simp [Memory.find_set_of_ne]
  | 1 => simp [Memory.find_set_of_ne]
  | 2 => simp [Memory.find_set_of_ne]
  | 3 => simp

/-- A written word leaves every other byte alone. -/
theorem Memory.find_setWord_outside (m : Memory) {a x : Nat} (v : Word) (h : x < a ∨ a + 4 ≤ x) :
    (m.setWord a v).find x = m.find x := by
  unfold Memory.setWord
  rw [Memory.find_set_of_ne _ _ (by omega), Memory.find_set_of_ne _ _ (by omega), Memory.find_set_of_ne _ _ (by omega),
    Memory.find_set_of_ne _ _ (by omega)]

/-! ### Words written one after the other, as SER writes the digest buffer -/

theorem Memory.foldl_setWord_wf (l : List (Fin 8)) (Hv : Vector Word 8) {m : Memory} (h : m.wf) :
    (l.foldl (fun m i => m.setWord (digAddr i) (Hv.get i)) m).wf := by
  induction l generalizing m with
  | nil => exact h
  | cons i l ih =>
    refine ih (Memory.setWord_wf _ h ?_)
    simp only [digAddr, Config.digBase, Config.blkBase, Config.digEnd]
    omega

theorem Memory.setDigest_wf {m : Memory} (Hv : Vector Word 8) (h : m.wf) : (m.setDigest Hv).wf :=
  Memory.foldl_setWord_wf _ _ h

theorem Memory.find_foldl_setWord_outside (l : List (Fin 8)) (Hv : Vector Word 8) (m : Memory) {x : Nat}
    (h : ∀ i ∈ l, x < digAddr i ∨ digAddr i + 4 ≤ x) :
    (l.foldl (fun m i => m.setWord (digAddr i) (Hv.get i)) m).find x = m.find x := by
  induction l generalizing m with
  | nil => rfl
  | cons i l ih =>
    simp only [List.foldl_cons]
    rw [ih _ fun j hj => h j (by simp [hj]), Memory.find_setWord_outside _ _ (h i (by simp))]

theorem Memory.find_foldl_setWord_inside (l : List (Fin 8)) (hl : l.Nodup) (Hv : Vector Word 8) (m : Memory)
    {i : Fin 8} (hi : i ∈ l) (k : Fin 4) :
    (l.foldl (fun m i => m.setWord (digAddr i) (Hv.get i)) m).find (digAddr i + k.val) = some (byteOf (Hv.get i) k) := by
  induction l generalizing m with
  | nil => simp at hi
  | cons j l ih =>
    obtain ⟨hj, hn⟩ := List.nodup_cons.mp hl
    by_cases h : i ∈ l
    · exact ih hn _ h
    · have hij : i = j := by simpa [h] using hi
      subst hij
      simp only [List.foldl_cons]
      rw [Memory.find_foldl_setWord_outside _ _ _ fun j' hj' => ?_, Memory.find_setWord_inside]
      have : j'.val ≠ i.val := fun e => h (Fin.ext e ▸ hj')
      simp only [digAddr]
      omega

/-- What the 32 bytes of the digest buffer hold after SER. -/
theorem Memory.find_setDigest_inside (m : Memory) (Hv : Vector Word 8) (i : Fin 8) (k : Fin 4) :
    (m.setDigest Hv).find (digAddr i + k.val) = some (byteOf (Hv.get i) k) :=
  Memory.find_foldl_setWord_inside _ (List.nodup_finRange 8) _ _ (List.mem_finRange i) k

/-- SER leaves every byte outside the digest buffer alone. -/
theorem Memory.find_setDigest_outside (m : Memory) (Hv : Vector Word 8) {x : Nat}
    (h : x < Config.digBase ∨ Config.digEnd ≤ x) : (m.setDigest Hv).find x = m.find x := by
  refine Memory.find_foldl_setWord_outside _ _ _ fun i _ => ?_
  have := i.isLt
  simp only [Config.digBase, Config.digEnd, digAddr] at *
  omega

end Sys2Proof.Machine
end

