-- ==== Sys2Proof/Laws/State.lean ====
section
/-! SUPPORT. One lemma per field per named update of the state, so that no later proof unfolds a record update. -/

namespace Sys2Proof.Machine


/-! ### respond -/

@[simp] theorem State.respond_H (s : State) (r : Resp) (d : Word) : (s.respond r d).H = s.H := rfl
@[simp] theorem State.respond_ws (s : State) (r : Resp) (d : Word) : (s.respond r d).ws = s.ws := rfl
@[simp] theorem State.respond_W (s : State) (r : Resp) (d : Word) : (s.respond r d).W = s.W := rfl
@[simp] theorem State.respond_mem (s : State) (r : Resp) (d : Word) : (s.respond r d).mem = s.mem := rfl
@[simp] theorem State.respond_upc (s : State) (r : Resp) (d : Word) : (s.respond r d).upc = s.upc := rfl
@[simp] theorem State.respond_INITD (s : State) (r : Resp) (d : Word) : (s.respond r d).INITD = s.INITD := rfl
@[simp] theorem State.respond_DV (s : State) (r : Resp) (d : Word) : (s.respond r d).DV = s.DV := rfl
@[simp] theorem State.respond_BV (s : State) (r : Resp) (d : Word) : (s.respond r d).BV = s.BV := rfl
@[simp] theorem State.respond_E_ADDR (s : State) (r : Resp) (d : Word) : (s.respond r d).E_ADDR = s.E_ADDR := rfl
@[simp] theorem State.respond_E_CMD (s : State) (r : Resp) (d : Word) : (s.respond r d).E_CMD = s.E_CMD := rfl
@[simp] theorem State.respond_E_SEQ (s : State) (r : Resp) (d : Word) : (s.respond r d).E_SEQ = s.E_SEQ := rfl
@[simp] theorem State.respond_port (s : State) (r : Resp) (d : Word) : (s.respond r d).port = s.port.tail := rfl
@[simp] theorem State.respond_responses (s : State) (r : Resp) (d : Word) : (s.respond r d).responses = s.responses ++ [⟨r, d⟩] := rfl
@[simp] theorem State.respond_epoch (s : State) (r : Resp) (d : Word) : (s.respond r d).epoch = s.epoch := rfl

/-! ### setSticky -/

@[simp] theorem State.setSticky_H (s : State) (e : EngineError) : (s.setSticky e).H = s.H := rfl
@[simp] theorem State.setSticky_ws (s : State) (e : EngineError) : (s.setSticky e).ws = s.ws := rfl
@[simp] theorem State.setSticky_W (s : State) (e : EngineError) : (s.setSticky e).W = s.W := rfl
@[simp] theorem State.setSticky_mem (s : State) (e : EngineError) : (s.setSticky e).mem = s.mem := rfl
@[simp] theorem State.setSticky_upc (s : State) (e : EngineError) : (s.setSticky e).upc = s.upc := rfl
@[simp] theorem State.setSticky_INITD (s : State) (e : EngineError) : (s.setSticky e).INITD = s.INITD := rfl
@[simp] theorem State.setSticky_DV (s : State) (e : EngineError) : (s.setSticky e).DV = s.DV := rfl
@[simp] theorem State.setSticky_BV (s : State) (e : EngineError) : (s.setSticky e).BV = s.BV := rfl
@[simp] theorem State.setSticky_E_ADDR (s : State) (e : EngineError) : (s.setSticky e).E_ADDR = (s.E_ADDR || e == .addrError) := rfl
@[simp] theorem State.setSticky_E_CMD (s : State) (e : EngineError) : (s.setSticky e).E_CMD = (s.E_CMD || e == .cmdError) := rfl
@[simp] theorem State.setSticky_E_SEQ (s : State) (e : EngineError) : (s.setSticky e).E_SEQ = (s.E_SEQ || e == .seqError) := rfl
@[simp] theorem State.setSticky_port (s : State) (e : EngineError) : (s.setSticky e).port = s.port := rfl
@[simp] theorem State.setSticky_responses (s : State) (e : EngineError) : (s.setSticky e).responses = s.responses := rfl
@[simp] theorem State.setSticky_epoch (s : State) (e : EngineError) : (s.setSticky e).epoch = s.epoch := rfl

/-! ### raise -/

@[simp] theorem State.raise_H (s : State) (e : EngineError) : (s.raise e).H = s.H := rfl
@[simp] theorem State.raise_ws (s : State) (e : EngineError) : (s.raise e).ws = s.ws := rfl
@[simp] theorem State.raise_W (s : State) (e : EngineError) : (s.raise e).W = s.W := rfl
@[simp] theorem State.raise_mem (s : State) (e : EngineError) : (s.raise e).mem = s.mem := rfl
@[simp] theorem State.raise_upc (s : State) (e : EngineError) : (s.raise e).upc = s.upc := rfl
@[simp] theorem State.raise_INITD (s : State) (e : EngineError) : (s.raise e).INITD = s.INITD := rfl
@[simp] theorem State.raise_DV (s : State) (e : EngineError) : (s.raise e).DV = s.DV := rfl
@[simp] theorem State.raise_BV (s : State) (e : EngineError) : (s.raise e).BV = s.BV := rfl
@[simp] theorem State.raise_E_ADDR (s : State) (e : EngineError) : (s.raise e).E_ADDR = (s.E_ADDR || e == .addrError) := rfl
@[simp] theorem State.raise_E_CMD (s : State) (e : EngineError) : (s.raise e).E_CMD = (s.E_CMD || e == .cmdError) := rfl
@[simp] theorem State.raise_E_SEQ (s : State) (e : EngineError) : (s.raise e).E_SEQ = (s.E_SEQ || e == .seqError) := rfl
@[simp] theorem State.raise_port (s : State) (e : EngineError) : (s.raise e).port = s.port.tail := rfl
@[simp] theorem State.raise_responses (s : State) (e : EngineError) : (s.raise e).responses = s.responses ++ [⟨.err, 0⟩] := rfl
@[simp] theorem State.raise_epoch (s : State) (e : EngineError) : (s.raise e).epoch = s.epoch := rfl

/-! ### memWrite -/

@[simp] theorem State.memWrite_H (s : State) (a : Nat) (v : Word) : (s.memWrite a v).H = s.H := rfl
@[simp] theorem State.memWrite_ws (s : State) (a : Nat) (v : Word) : (s.memWrite a v).ws = s.ws := rfl
@[simp] theorem State.memWrite_W (s : State) (a : Nat) (v : Word) : (s.memWrite a v).W = s.W := rfl
@[simp] theorem State.memWrite_mem (s : State) (a : Nat) (v : Word) : (s.memWrite a v).mem = s.mem.setWord a v := rfl
@[simp] theorem State.memWrite_upc (s : State) (a : Nat) (v : Word) : (s.memWrite a v).upc = s.upc := rfl
@[simp] theorem State.memWrite_INITD (s : State) (a : Nat) (v : Word) : (s.memWrite a v).INITD = s.INITD := rfl
@[simp] theorem State.memWrite_DV (s : State) (a : Nat) (v : Word) : (s.memWrite a v).DV = s.DV := rfl
@[simp] theorem State.memWrite_BV (s : State) (a : Nat) (v : Word) : (s.memWrite a v).BV = s.BV := rfl
@[simp] theorem State.memWrite_E_ADDR (s : State) (a : Nat) (v : Word) : (s.memWrite a v).E_ADDR = s.E_ADDR := rfl
@[simp] theorem State.memWrite_E_CMD (s : State) (a : Nat) (v : Word) : (s.memWrite a v).E_CMD = s.E_CMD := rfl
@[simp] theorem State.memWrite_E_SEQ (s : State) (a : Nat) (v : Word) : (s.memWrite a v).E_SEQ = s.E_SEQ := rfl
@[simp] theorem State.memWrite_port (s : State) (a : Nat) (v : Word) : (s.memWrite a v).port = s.port := rfl
@[simp] theorem State.memWrite_responses (s : State) (a : Nat) (v : Word) : (s.memWrite a v).responses = s.responses := rfl
@[simp] theorem State.memWrite_epoch (s : State) (a : Nat) (v : Word) : (s.memWrite a v).epoch = s.epoch := rfl

/-! ### elapse -/

@[simp] theorem State.elapse_H (s : State) : (s.elapse).H = s.H := rfl
@[simp] theorem State.elapse_ws (s : State) : (s.elapse).ws = s.ws := rfl
@[simp] theorem State.elapse_W (s : State) : (s.elapse).W = s.W := rfl
@[simp] theorem State.elapse_mem (s : State) : (s.elapse).mem = s.mem := rfl
@[simp] theorem State.elapse_upc (s : State) : (s.elapse).upc = s.upc := rfl
@[simp] theorem State.elapse_INITD (s : State) : (s.elapse).INITD = s.INITD := rfl
@[simp] theorem State.elapse_DV (s : State) : (s.elapse).DV = s.DV := rfl
@[simp] theorem State.elapse_BV (s : State) : (s.elapse).BV = s.BV := rfl
@[simp] theorem State.elapse_E_ADDR (s : State) : (s.elapse).E_ADDR = s.E_ADDR := rfl
@[simp] theorem State.elapse_E_CMD (s : State) : (s.elapse).E_CMD = s.E_CMD := rfl
@[simp] theorem State.elapse_E_SEQ (s : State) : (s.elapse).E_SEQ = s.E_SEQ := rfl
@[simp] theorem State.elapse_port (s : State) : (s.elapse).port = elapsedPort 1 s.port := by
  cases h : s.port <;> simp [State.elapse, elapsedPort, h]
@[simp] theorem State.elapse_responses (s : State) : (s.elapse).responses = s.responses := rfl
@[simp] theorem State.elapse_epoch (s : State) : (s.elapse).epoch = s.epoch := rfl

/-! ### assertReset -/

@[simp] theorem State.assertReset_H (s : State) : (s.assertReset).H = Vector.ofFn (Config.resetH (s.epoch + 1)) := rfl
@[simp] theorem State.assertReset_ws (s : State) : (s.assertReset).ws = Vector.ofFn (Config.resetWs (s.epoch + 1)) := rfl
@[simp] theorem State.assertReset_W (s : State) : (s.assertReset).W = Vector.ofFn (Config.resetW (s.epoch + 1)) := rfl
@[simp] theorem State.assertReset_mem (s : State) : (s.assertReset).mem = [] := rfl
@[simp] theorem State.assertReset_upc (s : State) : (s.assertReset).upc = 0 := rfl
@[simp] theorem State.assertReset_INITD (s : State) : (s.assertReset).INITD = false := rfl
@[simp] theorem State.assertReset_DV (s : State) : (s.assertReset).DV = false := rfl
@[simp] theorem State.assertReset_BV (s : State) : (s.assertReset).BV = 0 := rfl
@[simp] theorem State.assertReset_E_ADDR (s : State) : (s.assertReset).E_ADDR = false := rfl
@[simp] theorem State.assertReset_E_CMD (s : State) : (s.assertReset).E_CMD = false := rfl
@[simp] theorem State.assertReset_E_SEQ (s : State) : (s.assertReset).E_SEQ = false := rfl
@[simp] theorem State.assertReset_port (s : State) : (s.assertReset).port = s.port.tail := rfl
@[simp] theorem State.assertReset_responses (s : State) : (s.assertReset).responses = s.responses := rfl
@[simp] theorem State.assertReset_epoch (s : State) : (s.assertReset).epoch = s.epoch + 1 := rfl

/-! ### placeMicro -/

@[simp] theorem State.placeMicro_H (s : State) (u : BitVec 9) : (s.placeMicro u).H = s.H := rfl
@[simp] theorem State.placeMicro_ws (s : State) (u : BitVec 9) : (s.placeMicro u).ws = s.ws := rfl
@[simp] theorem State.placeMicro_W (s : State) (u : BitVec 9) : (s.placeMicro u).W = s.W := rfl
@[simp] theorem State.placeMicro_mem (s : State) (u : BitVec 9) : (s.placeMicro u).mem = s.mem := rfl
@[simp] theorem State.placeMicro_upc (s : State) (u : BitVec 9) : (s.placeMicro u).upc = u := rfl
@[simp] theorem State.placeMicro_INITD (s : State) (u : BitVec 9) : (s.placeMicro u).INITD = s.INITD := rfl
@[simp] theorem State.placeMicro_DV (s : State) (u : BitVec 9) : (s.placeMicro u).DV = s.DV := rfl
@[simp] theorem State.placeMicro_BV (s : State) (u : BitVec 9) : (s.placeMicro u).BV = s.BV := rfl
@[simp] theorem State.placeMicro_E_ADDR (s : State) (u : BitVec 9) : (s.placeMicro u).E_ADDR = s.E_ADDR := rfl
@[simp] theorem State.placeMicro_E_CMD (s : State) (u : BitVec 9) : (s.placeMicro u).E_CMD = s.E_CMD := rfl
@[simp] theorem State.placeMicro_E_SEQ (s : State) (u : BitVec 9) : (s.placeMicro u).E_SEQ = s.E_SEQ := rfl
@[simp] theorem State.placeMicro_port (s : State) (u : BitVec 9) : (s.placeMicro u).port = delayHead s.port := rfl
@[simp] theorem State.placeMicro_responses (s : State) (u : BitVec 9) : (s.placeMicro u).responses = s.responses := rfl
@[simp] theorem State.placeMicro_epoch (s : State) (u : BitVec 9) : (s.placeMicro u).epoch = s.epoch := rfl

/-! ### Reads that depend on some fields only -/

theorem State.readByte_congr {s t : State} (hm : t.mem = s.mem) (he : t.epoch = s.epoch) (a : Nat) :
    t.readByte a = s.readByte a := by
  simp [State.readByte, hm, he]

theorem State.block_congr {s t : State} (hm : t.mem = s.mem) (he : t.epoch = s.epoch) : t.block = s.block := by
  simp [State.block, State.readByte_congr hm he]

theorem State.dig_congr {s t : State} (hm : t.mem = s.mem) (he : t.epoch = s.epoch) : t.dig = s.dig := by
  simp [State.dig, State.readByte_congr hm he]

@[simp] theorem State.respond_readByte (s : State) (r : Resp) (d : Word) (a : Nat) :
    (s.respond r d).readByte a = s.readByte a := rfl

@[simp] theorem State.raise_readByte (s : State) (e : EngineError) (a : Nat) :
    (s.raise e).readByte a = s.readByte a := rfl

@[simp] theorem State.elapse_readByte (s : State) (a : Nat) : s.elapse.readByte a = s.readByte a := rfl

@[simp] theorem State.respond_ph (s : State) (r : Resp) (d : Word) : (s.respond r d).ph = s.ph := rfl

@[simp] theorem State.raise_ph (s : State) (e : EngineError) : (s.raise e).ph = s.ph := rfl

@[simp] theorem State.elapse_ph (s : State) : s.elapse.ph = s.ph := rfl

@[simp] theorem State.elapse_t (s : State) : s.elapse.t = s.t := rfl

@[simp] theorem elapsedPort_zero (p : List Request) : elapsedPort 0 p = p := by
  cases p <;> simp [elapsedPort]

end Sys2Proof.Machine
end

