-- ==== Sys2Proof/Laws/Ops.lean ====
section
/-! SUPPORT. One lemma for each shared operation that says everything it can do, for later proofs to cite. -/

namespace Sys2Proof.Machine

/-! ### Packing and unpacking (R111, R112) -/

theorem getLsbD_be32 (b0 b1 b2 b3 : Byte) (i : Nat) :
    (be32 b0 b1 b2 b3).getLsbD i =
      if i < 8 then b3.getLsbD i else if i < 16 then b2.getLsbD (i - 8) else if i < 24 then b1.getLsbD (i - 16)
        else b0.getLsbD (i - 24) := by
  simp only [be32, BitVec.getLsbD_append, Nat.sub_sub]
  split_ifs <;> first | rfl | (exfalso; omega)

@[simp] theorem be32_byteOf (x : Word) : be32 (byteOf x 0) (byteOf x 1) (byteOf x 2) (byteOf x 3) = x := by
  ext i hi
  rw [← BitVec.getLsbD_eq_getElem hi, getLsbD_be32]
  simp only [byteOf, BitVec.getLsbD_extractLsb', ← BitVec.getLsbD_eq_getElem hi]
  split
  · simp_all
  · split
    · next h => simp [show i - 8 < 8 by omega, show 16 - 8 + (i - 8) = i by omega]
    · split
      · next h => simp [show i - 16 < 8 by omega, show 16 + (i - 16) = i by omega]
      · next h => simp [show i - 24 < 8 by omega, show 24 + (i - 24) = i by omega]

theorem byteOf_be32 (b0 b1 b2 b3 : Byte) :
    byteOf (be32 b0 b1 b2 b3) 0 = b0 ∧ byteOf (be32 b0 b1 b2 b3) 1 = b1 ∧ byteOf (be32 b0 b1 b2 b3) 2 = b2 ∧
      byteOf (be32 b0 b1 b2 b3) 3 = b3 := by
  have lane : ∀ (k : Fin 4) (i : Nat), i < 8 → (byteOf (be32 b0 b1 b2 b3) k).getLsbD i =
      (be32 b0 b1 b2 b3).getLsbD (24 - 8 * k.val + i) := by
    intro k i hi
    simp [byteOf, hi]
  refine ⟨?_, ?_, ?_, ?_⟩ <;>
  · ext i hi
    rw [← BitVec.getLsbD_eq_getElem hi, lane _ i hi, getLsbD_be32]
    simp only [Fin.isValue, Fin.val_zero, Fin.val_one, Fin.val_two, show ((3 : Fin 4) : Nat) = 3 from rfl]
    rw [← BitVec.getLsbD_eq_getElem hi]
    split_ifs <;> first | (exfalso; omega) | (congr 1; omega)

/-! ### Reads after writes -/

theorem State.readByte_memWrite_inside (s : State) (a : Nat) (v : Word) (k : Fin 4) :
    (s.memWrite a v).readByte (a + k.val) = byteOf v k := by
  simp [State.readByte, Memory.find_setWord_inside]

theorem State.readByte_memWrite_outside (s : State) {a x : Nat} (v : Word) (h : x < a ∨ a + 4 ≤ x) :
    (s.memWrite a v).readByte x = s.readByte x := by
  simp [State.readByte, Memory.find_setWord_outside _ _ h]

@[simp] theorem State.memRead_memWrite (s : State) (a : Nat) (v : Word) : (s.memWrite a v).memRead a = v := by
  have h0 := State.readByte_memWrite_inside s a v 0
  have h1 := State.readByte_memWrite_inside s a v 1
  have h2 := State.readByte_memWrite_inside s a v 2
  have h3 := State.readByte_memWrite_inside s a v 3
  have : (s.memWrite a v).memRead a = be32 (byteOf v 0) (byteOf v 1) (byteOf v 2) (byteOf v 3) := by
    rw [← h0, ← h1, ← h2, ← h3]
    rfl
  rw [this, be32_byteOf]

theorem State.memRead_memWrite_outside (s : State) {a b : Nat} (v : Word) (h : b + 4 ≤ a ∨ a + 4 ≤ b) :
    (s.memWrite a v).memRead b = s.memRead b := by
  unfold State.memRead
  rw [State.readByte_memWrite_outside, State.readByte_memWrite_outside, State.readByte_memWrite_outside,
    State.readByte_memWrite_outside] <;> omega

theorem State.memRead_congr {s t : State} (hm : t.mem = s.mem) (he : t.epoch = s.epoch) (a : Nat) :
    t.memRead a = s.memRead a := by
  simp only [State.memRead, State.readByte_congr hm he]

/-! ### The flags -/

theorem getLsbD_setValid (bv : BitVec 16) (i : Fin 16) {n : Nat} (hn : n < 16) :
    (setValid bv i).getLsbD n = (decide (n = i.val) || bv.getLsbD n) := by
  have : (1#16 <<< i.val).getLsbD n = decide (n = i.val) := by
    simp only [BitVec.getLsbD_shiftLeft, BitVec.getLsbD_one]
    by_cases h : n = i.val
    · subst h; simp [hn]
    · by_cases h2 : n < i.val
      · simp [h2, h]
      · simp [h, show n - i.val ≠ 0 by omega]
  simp [setValid, this, Bool.or_comm]

/-! ### The hold -/

theorem whenIdle_idle {s : State} (f : State → State) (h : s.ph = Phase.idle) : whenIdle s f = .next (f s) := by
  simp [whenIdle, h]

theorem whenIdle_busy {s : State} (f : State → State) (h : s.ph ≠ Phase.idle) : whenIdle s f = .next s := by
  simp [whenIdle, h]

/-- What a held or accepted transaction can come to. -/
theorem whenIdle_cases {s t : State} {f : State → State} (h : whenIdle s f = .next t) :
    (s.ph = Phase.idle ∧ t = f s) ∨ (s.ph ≠ Phase.idle ∧ t = s) := by
  unfold whenIdle at h
  split at h <;> cases h
  · exact .inl ⟨‹_›, rfl⟩
  · exact .inr ⟨‹_›, rfl⟩

/-! ### The schedule list -/

@[simp] theorem length_schedUpTo (B : Block) (n : Nat) : (schedUpTo B n).length = n := by
  induction n with
  | zero => rfl
  | succ n ih => simp [schedUpTo, ih]

/-- A longer schedule begins with every shorter one. -/
theorem schedUpTo_getD (B : Block) {k n : Nat} (h : k < n) : (schedUpTo B n).getD k 0 = nextSched B (schedUpTo B k) k := by
  induction n with
  | zero => omega
  | succ n ih =>
    rcases Nat.lt_or_ge k n with hk | hk
    · rw [← ih hk]
      simp [schedUpTo, List.getD_eq_getElem?_getD, List.getElem?_append, hk]
    · obtain rfl : k = n := by omega
      simp [schedUpTo, List.getD_eq_getElem?_getD]

theorem sched_get (B : Block) (t : Fin 64) : (sched B).get t = nextSched B (schedUpTo B t.val) t.val := by
  simp only [sched, Vector.get_eq_getElem, Vector.getElem_ofFn]
  exact schedUpTo_getD B t.isLt

/-- Before index `n` the schedule list and the schedule agree. -/
theorem schedUpTo_getD_eq_sched (B : Block) {k n : Nat} (h : k < n) (hk : k < 64) :
    (schedUpTo B n).getD k 0 = (sched B).get ⟨k, hk⟩ := by
  rw [schedUpTo_getD B h, sched_get]

@[simp] theorem K_ofNat {n : Nat} (h : n < 64) : K (Fin.ofNat 64 n) = K ⟨n, h⟩ := by
  congr 1
  exact Fin.ext (Nat.mod_eq_of_lt h)

/-! ### The digest buffer after SER -/

theorem State.readByte_setDigest_inside {s t : State} (h : t.mem = s.mem.setDigest s.H) (i : Fin 8) (k : Fin 4) :
    t.readByte (digAddr i + k.val) = byteOf (s.H.get i) k := by
  rw [State.readByte, h, Memory.find_setDigest_inside, Option.getD_some]

theorem State.readByte_setDigest_outside {s t : State} (h : t.mem = s.mem.setDigest s.H) (he : t.epoch = s.epoch)
    {a : Nat} (ha : a < Config.digBase ∨ Config.digEnd ≤ a) : t.readByte a = s.readByte a := by
  rw [State.readByte, State.readByte, h, he, Memory.find_setDigest_outside s.mem s.H ha]

theorem State.dig_setDigest {s t : State} (h : t.mem = s.mem.setDigest s.H) : t.dig = serialize s.H := by
  unfold State.dig serialize
  congr 1
  funext n
  have e : Config.digBase + n.val = digAddr ⟨n.val / 4, by omega⟩ + (⟨n.val % 4, by omega⟩ : Fin 4).val := by
    simp only [digAddr]
    omega
  rw [e, State.readByte, h, Memory.find_setDigest_inside]
  rfl

end Sys2Proof.Machine
end

