-- ==== Sys2Proof/Laws/Step.lean ====
section
/-! SUPPORT. What a step can do, said once: the control words and their micro-operations, the transactions and their
words, and the cases of a step. -/

namespace Sys2Proof.Machine

/-- The micro-operation of a control word, and the word (R77). -/
theorem decodeU_op_cases {u : BitVec 9} {i : Instr} (h : decodeU u = .op i) :
    (∃ t : Fin 16, i = .ldw t ∧ u = upcAt Phase.sched t.val) ∨
    (∃ t : Fin 64, i = .exp t ∧ 16 ≤ t.val ∧ u = upcAt Phase.sched t.val) ∨
    (i = .wsinit ∧ u = upcAt Phase.wsinit 0) ∨
    (∃ t : Fin 64, i = .rnd t ∧ u = upcAt Phase.rnd t.val) ∨
    (i = .acc ∧ u = upcAt Phase.acc 0) ∨
    (i = .ser ∧ u = upcAt Phase.ser 0) ∨
    (i = .hinit ∧ u = upcAt Phase.hinit 0) := by
  revert h
  rw [U.eq_mk u]
  generalize U.ph u = p
  generalize U.t u = t
  simp only [decodeU, U.ph_mk, U.t_mk, decodeIndexless]
  intro h
  split at h
  · split at h <;> cases h
  · split at h
    · next hp =>
      subst hp
      split at h
      · next ht =>
        cases h
        refine .inl ⟨_, rfl, ?_⟩
        rw [upcAt]
        congr 1
        revert ht
        revert t
        decide
      · next ht =>
        cases h
        refine .inr (.inl ⟨_, rfl, ?_, ?_⟩)
        · revert ht
          revert t
          decide
        · rw [upcAt]
          congr 1
          simp
    · split at h
      · split at h <;> cases h
        next hp ht => subst hp ht; exact .inr (.inr (.inl ⟨rfl, rfl⟩))
      · split at h
        · next hp =>
          subst hp
          cases h
          refine .inr (.inr (.inr (.inl ⟨_, rfl, ?_⟩)))
          rw [upcAt]
          congr 1
          simp
        · split at h
          · split at h <;> cases h
            next hp ht => subst hp ht; exact .inr (.inr (.inr (.inr (.inl ⟨rfl, rfl⟩))))
          · split at h
            · split at h <;> cases h
              next hp ht => subst hp ht; exact .inr (.inr (.inr (.inr (.inr (.inl ⟨rfl, rfl⟩)))))
            · split at h
              · split at h <;> cases h
                next hp ht => subst hp ht; exact .inr (.inr (.inr (.inr (.inr (.inr ⟨rfl, rfl⟩)))))
              · cases h

/-- IDLE is the control word 0 alone (R77). -/
theorem decodeU_idle {u : BitVec 9} (h : decodeU u = .idle) : u = 0 := by
  revert h
  rw [U.eq_mk u]
  generalize U.ph u = p
  generalize U.t u = t
  simp only [decodeU, U.ph_mk, U.t_mk, decodeIndexless]
  intro h
  repeat' split at h
  all_goals try cases h
  next hp ht => subst hp ht; rfl

/-- A control word with a micro-operation is not in phase 0. -/
theorem decodeU_op_ph {u : BitVec 9} {i : Instr} (h : decodeU u = .op i) : U.ph u ≠ Phase.idle := by
  rcases decodeU_op_cases h with ⟨t, -, rfl⟩ | ⟨t, -, -, rfl⟩ | ⟨-, rfl⟩ | ⟨t, -, rfl⟩ | ⟨-, rfl⟩ | ⟨-, rfl⟩ | ⟨-, rfl⟩ <;>
    simp only [U.ph_upcAt] <;> decide

/-- The micro-operation of each control word of a phase (R77). -/
theorem decodeU_ldw (t : Fin 16) : decodeU (upcAt Phase.sched t.val) = .op (.ldw t) := by
  revert t; decide

theorem decodeU_exp {t : Fin 64} (h : 16 ≤ t.val) : decodeU (upcAt Phase.sched t.val) = .op (.exp t) := by
  revert t; decide

theorem decodeU_rnd (t : Fin 64) : decodeU (upcAt Phase.rnd t.val) = .op (.rnd t) := by
  revert t; decide

theorem decodeU_wsinit : decodeU (upcAt Phase.wsinit 0) = .op .wsinit := by decide
theorem decodeU_acc : decodeU (upcAt Phase.acc 0) = .op .acc := by decide
theorem decodeU_ser : decodeU (upcAt Phase.ser 0) = .op .ser := by decide
theorem decodeU_hinit : decodeU (upcAt Phase.hinit 0) = .op .hinit := by decide

/-- What a transaction word decodes to is one of the seven transactions (R76). -/
theorem decodeX_legal_isTransaction {w : BitVec 41} {i : Instr} (h : decodeX w = .legal i) : i.isTransaction = true := by
  simp only [decodeX, decodeCommand] at h
  repeat' split at h
  all_goals first | (cases h; rfl) | cases h

theorem engineCan_iff {s : State} : s.engineCan = true ↔ ∃ i, decodeU s.upc = .op i := by
  unfold State.engineCan
  cases decodeU s.upc <;> simp

/-- While the engine has a step and the host is kept off, the host does not move (R157). -/
theorem hostMoves_false {s : State} {r : Request} {rest : List Request} {i : Instr} {n : Nat} (hp : s.port = r :: rest)
    (hi : decodeU s.upc = .op i) (hq : s.undisturbed (n + 1)) : s.hostMoves r = false := by
  have hc : s.engineCan = true := engineCan_iff.mpr ⟨i, hi⟩
  rcases hq r (by simp [hp]) with h | ⟨w, hw, hx⟩
  · have : r.wait ≠ 0 := by omega
    simp [State.hostMoves, hc, this]
  · have := decodeU_op_ph hi
    simp [State.hostMoves, State.accepts, hw, hx, State.ph, this]

/-- The engine's step. -/
theorem step_engine {s : State} {i : Instr} (hi : decodeU s.upc = .op i) (hq : s.undisturbed 1) :
    step s = exec i s.elapse := by
  simp only [step, agentStep]
  split
  · simp [engineMove, hi]
  · next r rest hp => simp [hostMoves_false (n := 0) hp hi hq, engineMove, hi]

/-- In a state with ph = 0 the host moves whenever an event stands at its port. -/
theorem hostMoves_of_idle {s : State} (r : Request) (h : s.ph = Phase.idle) : s.hostMoves r = true := by
  have hc : s.engineCan = false := by
    rw [Bool.eq_false_iff]
    intro hc
    obtain ⟨j, hj⟩ := engineCan_iff.mp hc
    exact decodeU_op_ph hj h
  cases he : r.ev <;> simp [State.hostMoves, State.accepts, he, h, hc]

/-- What a step that gives a next state has done. -/
theorem step_cases {s t : State} (h : step s = .next t) :
    (∃ i, decodeU s.upc = .op i ∧ (∀ r rest, s.port = r :: rest → s.hostMoves r = false) ∧ exec i s.elapse = .next t) ∨
    (s.port = [] ∧ s.upc = 0 ∧ t = s) ∨
    (∃ r rest, s.port = r :: rest ∧ s.hostMoves r = true ∧ r.ev = .reset ∧ t = s.assertReset) ∨
    (∃ r rest w i, s.port = r :: rest ∧ s.hostMoves r = true ∧ r.ev = .txn w ∧ decodeX w = .legal i ∧
      exec i s = .next t) ∨
    (∃ r rest w c, s.port = r :: rest ∧ s.hostMoves r = true ∧ r.ev = .txn w ∧ decodeX w = .illegal c ∧
      t = s.raise (errorOf c)) := by
  have engine : engineMove s = .next t → (∀ r rest, s.port = r :: rest → s.hostMoves r = false) →
      (∃ i, decodeU s.upc = .op i ∧ (∀ r rest, s.port = r :: rest → s.hostMoves r = false) ∧ exec i s.elapse = .next t) ∨
      (s.port = [] ∧ s.upc = 0 ∧ t = s) := by
    intro he hm
    unfold engineMove at he
    split at he
    · next i hi => exact .inl ⟨i, hi, hm, he⟩
    · next hi =>
      cases he
      refine .inr ⟨?_, decodeU_idle hi, rfl⟩
      cases hp : s.port with
      | nil => rfl
      | cons r rest =>
        have hph : s.ph = Phase.idle := by rw [State.ph, decodeU_idle hi]; rfl
        have hc : s.engineCan = false := by simp [State.engineCan, hi]
        have := hm r rest hp
        cases he : r.ev <;> simp [State.hostMoves, State.accepts, he, hph, hc] at this
    · cases he
  simp only [step, agentStep] at h
  split at h
  · next hp =>
    rcases engine h (by simp [hp]) with h | h
    · exact .inl h
    · exact .inr (.inl h)
  · next r rest hp =>
    split at h
    · next hm =>
      unfold hostMove at h
      split at h
      · next he => cases h; exact .inr (.inr (.inl ⟨r, rest, hp, hm, he, rfl⟩))
      · next w he =>
        split at h
        · next i hx => exact .inr (.inr (.inr (.inl ⟨r, rest, w, i, hp, hm, he, hx, h⟩)))
        · next c hx => cases h; exact .inr (.inr (.inr (.inr ⟨r, rest, w, c, hp, hm, he, hx, rfl⟩)))
    · next hm =>
      have hm' : ∀ r' rest', s.port = r' :: rest' → s.hostMoves r' = false := by
        intro r' rest' e
        rw [hp] at e
        cases e
        simpa using hm
      rcases engine h hm' with h | h
      · exact .inl h
      · exact .inr (.inl h)

@[simp] theorem steps_zero (s : State) : steps 0 s = .next s := rfl

/-- `n + 1` steps are one step and `n` more. -/
theorem steps_succ {s t : State} (n : Nat) (h : step s = .next t) : steps (n + 1) s = steps n t := by
  have h' : Sys2Proof.core.step s = .next t := h
  simp only [steps, Host.Core.run, h']
  rfl

/-- Runs compose. -/
theorem steps_add {s t : State} {m : Nat} (n : Nat) (h : steps m s = .next t) : steps (m + n) s = steps n t := by
  induction m generalizing s with
  | zero =>
    cases h
    rw [Nat.zero_add]
  | succ m ih =>
    rw [Nat.succ_add]
    simp only [steps, Host.Core.run] at h ih ⊢
    split at h
    · exact ih h
    · cases h
    · cases h

/-- `n` steps and one more. -/
theorem steps_succ_last {s t u : State} {n : Nat} (h : steps n s = .next t) (h' : step t = .next u) :
    steps (n + 1) s = .next u := by
  rw [steps_add 1 h, steps_succ 0 h', steps_zero]

/-- The host kept off for `n + k` steps is kept off for `n` after `k` of them. -/
theorem quietPort_elapsed {p : List Request} {n : Nat} (k : Nat) (h : quietPort p (n + k)) :
    quietPort (elapsedPort k p) n := by
  cases p with
  | nil => simp [quietPort, elapsedPort]
  | cons r rest =>
    intro r' hr
    cases hr
    rcases h r rfl with h | h
    · exact .inl (by show n ≤ r.wait - k; omega)
    · exact .inr h

theorem elapsedPort_elapsedPort (m n : Nat) (p : List Request) :
    elapsedPort m (elapsedPort n p) = elapsedPort (n + m) p := by
  cases p with
  | nil => rfl
  | cons r rest => simp [elapsedPort, Nat.sub_sub]

theorem State.elapse_eq (s : State) : s.elapse = { s with port := elapsedPort 1 s.port } := by
  apply State.ext <;> simp

theorem quietPort_mono {p : List Request} {m n : Nat} (h : quietPort p n) (hmn : m ≤ n) : quietPort p m :=
  fun r hr => (h r hr).imp_left (Nat.le_trans hmn)

end Sys2Proof.Machine
end

