-- ==== Sys2Proof/Laws/Exec.lean ====
section
/-! SUPPORT. What the meanings with a condition come to once it is known which way it goes. -/

namespace Sys2Proof.Machine

/-- EXP on a term that is an instruction. -/
theorem execExp_of_wf {t : Fin 64} (h : 16 ≤ t.val) (s : State) :
    execExp t s = .next { s with
      W := s.W.set t.val (expandWord (s.W.get (backIndex t 16)) (s.W.get (backIndex t 15)) (s.W.get (backIndex t 7))
        (s.W.get (backIndex t 2)))
      upc := advance Phase.sched t Phase.wsinit } := by
  simp [execExp, show ¬ t.val < 16 by omega]

/-- WRBLK in an idle engine. -/
theorem execWrblk_idle {s : State} (h : s.ph = Phase.idle) (i : Fin 16) (v : Word) :
    execWrblk i v s = .next ({ s.memWrite (blkAddr i) v with BV := setValid s.BV i }.respond .ok 0) :=
  whenIdle_idle _ h

/-- Where an index below 63, and index 63, leave the micro-PC. -/
theorem advance_lt {t : Fin 64} (h : t.val < 63) (p q : BitVec 3) : advance p t q = upcAt p (t.val + 1) := by
  simp [advance, h]

theorem advance_last {t : Fin 64} (h : t.val = 63) (p q : BitVec 3) : advance p t q = upcAt q 0 := by
  simp [advance, h]

/-- The invariant of phase 1 after one more word: a schedule written so far and its next word. -/
theorem sched_expand (B : Block) (t : Fin 64) (h : 16 ≤ t.val) :
    (sched B).get t = expandWord ((sched B).get (backIndex t 16)) ((sched B).get (backIndex t 15))
      ((sched B).get (backIndex t 7)) ((sched B).get (backIndex t 2)) := by
  have word : ∀ d, 0 < d → d ≤ 16 → (schedUpTo B t.val).getD (t.val - d) 0 = (sched B).get (backIndex t d) := by
    intro d h0 h1
    exact schedUpTo_getD_eq_sched B (by omega) _
  rw [sched_get, nextSched, dif_neg (by omega), word 16 (by omega) (by omega), word 15 (by omega) (by omega),
    word 7 (by omega) (by omega), word 2 (by omega) (by omega)]

theorem sched_load (B : Block) (t : Fin 64) (h : t.val < 16) : (sched B).get t = blockWord B ⟨t.val, h⟩ := by
  rw [sched_get, nextSched, dif_pos h]

/-- The word LDW loads is the block's word. -/
theorem State.memRead_blkAddr (s : State) (t : Fin 16) : s.memRead (blkAddr t) = blockWord s.block t := by
  simp only [State.memRead, blockWord, State.block, Vector.get_eq_getElem, Vector.getElem_ofFn, blkAddr]
  rfl

end Sys2Proof.Machine
end

