-- ==== Sys2Proof/Laws/HostProgram.lean ====
section
/-! SUPPORT. Runs of a host program: what a step of a busy engine can come to, and that in a fair run every sequence ends
(R157, R166, R243). -/

namespace Sys2Proof.Machine

/-! ### The response word (R71) -/

@[simp] theorem Resp.ofCode_code (r : Resp) : Resp.ofCode r.code = r := by cases r <;> rfl

@[simp] theorem Resp.code_ofCode (b : BitVec 1) : (Resp.ofCode b).code = b := by revert b; decide

@[simp] theorem Response.ofWord_word (r : Response) : Response.ofWord r.word = r := by
  have hi : (r.resp.code ++ r.rdata).extractLsb' 32 1 = r.resp.code := BitVec.extractLsb'_append_eq_left
  have lo : (r.resp.code ++ r.rdata).extractLsb' 0 32 = r.rdata := BitVec.extractLsb'_append_eq_right
  simp only [Response.word, Response.ofWord, hi, lo, Resp.ofCode_code]

@[simp] theorem Response.word_ofWord (w : BitVec 33) : (Response.ofWord w).word = w := by
  simp only [Response.word, Response.ofWord, Resp.code_ofCode]
  ext i hi
  rw [← BitVec.getLsbD_eq_getElem, ← BitVec.getLsbD_eq_getElem, BitVec.getLsbD_append]
  simp only [BitVec.getLsbD_extractLsb']
  by_cases h : i < 32
  · simp [h]
  · obtain rfl : i = 32 := by omega
    simp

/-! ### What the host presents and what it has seen -/

@[simp] theorem State.present_upc (s : State) (w : Option (BitVec 41)) : (s.present w).upc = s.upc := by
  unfold State.present
  split <;> rfl

@[simp] theorem State.withReset_upc (s : State) : s.withReset.upc = s.upc := rfl
@[simp] theorem State.withReset_port (s : State) : s.withReset.port = ⟨0, .reset⟩ :: s.port := rfl

/-- The host presents nothing where something stands at the port (R58). -/
theorem State.present_of_port {s : State} (w : Option (BitVec 41)) (h : s.port ≠ []) : s.present w = s := by
  unfold State.present
  split
  · exact absurd ‹_› h
  · rfl

theorem State.length_present_port (s : State) (w : Option (BitVec 41)) :
    (s.present w).port.length ≤ s.port.length ∨ (s.port = [] ∧ (s.present w).port.length = 1) := by
  unfold State.present
  split
  · next h => exact .inr ⟨h, rfl⟩
  · exact .inl le_rfl

@[simp] theorem Session.before_upc (p : HostProgram) (c : Schedule) (n : Nat) (x : Session) :
    (x.before p c n).upc = x.state.upc := by
  unfold Session.before
  split
  · rfl
  · split <;> simp

theorem runHost_zero (p : HostProgram) (c : Schedule) (n : Nat) (x : Session) : runHost p c 0 n x = .next x := rfl

/-- A run of `k + 1` steps is one step and `k` more. -/
theorem runHost_succ {p : HostProgram} {c : Schedule} {n : Nat} {x y : Session} (k : Nat)
    (h : x.step p c n = .next y) : runHost p c (k + 1) n x = runHost p c k (n + 1) y := by
  simp only [runHost, h]

/-! ### The engine steps that are left -/

theorem stepsLeft_pos {u : BitVec 9} {i : Instr} (h : decodeU u = .op i) : 0 < stepsLeft u := by
  rcases decodeU_op_cases h with ⟨t, rfl, -⟩ | ⟨t, rfl, -, -⟩ | ⟨rfl, -⟩ | ⟨t, rfl, -⟩ | ⟨rfl, -⟩ | ⟨rfl, -⟩ | ⟨rfl, -⟩ <;>
    simp only [stepsLeft, h] <;> omega

/-- A micro-operation completes; one step fewer is left, and the next control word is again one that some rule
produces. -/
theorem exec_micro_stepsLeft {u : BitVec 9} {i : Instr} (h : decodeU u = .op i) (s : State) :
    ∃ t, exec i s = .next t ∧ stepsLeft t.upc + 1 = stepsLeft u ∧ legalUpc t.upc := by
  rcases decodeU_op_cases h with ⟨t, rfl, rfl⟩ | ⟨t, rfl, h16, rfl⟩ | ⟨rfl, rfl⟩ | ⟨t, rfl, rfl⟩ | ⟨rfl, rfl⟩ | ⟨rfl, rfl⟩ |
    ⟨rfl, rfl⟩
  · refine ⟨_, rfl, ?_⟩
    show stepsLeft (upcAt Phase.sched (t.val + 1)) + 1 = _ ∧ legalUpc (upcAt Phase.sched (t.val + 1))
    clear h; unfold legalUpc; revert t; decide
  · refine ⟨_, execExp_of_wf h16 s, ?_⟩
    show stepsLeft (advance Phase.sched t Phase.wsinit) + 1 = _ ∧ legalUpc (advance Phase.sched t Phase.wsinit)
    clear h; unfold legalUpc; revert t; decide
  · refine ⟨_, rfl, ?_⟩
    show stepsLeft (upcAt Phase.rnd 0) + 1 = _ ∧ legalUpc (upcAt Phase.rnd 0)
    clear h; unfold legalUpc; decide
  · refine ⟨_, rfl, ?_⟩
    show stepsLeft (advance Phase.rnd t Phase.acc) + 1 = _ ∧ legalUpc (advance Phase.rnd t Phase.acc)
    clear h; unfold legalUpc; revert t; decide
  all_goals
    refine ⟨_, rfl, ?_⟩
    show stepsLeft (upcAt Phase.idle 0) + 1 = _ ∧ legalUpc (upcAt Phase.idle 0)
    clear h; unfold legalUpc; decide

/-- What a step of a busy engine can come to: a reset, a status read, or the engine's own step. -/
theorem step_busy {s : State} {i : Instr} (hi : decodeU s.upc = .op i) :
    ∃ t, step s = .next t ∧
      ((t.upc = upcAt Phase.idle 0) ∨
       (t.upc = s.upc ∧ t.port = s.port.tail ∧ s.port ≠ []) ∨
       (stepsLeft t.upc + 1 = stepsLeft s.upc ∧ legalUpc t.upc)) := by
  obtain ⟨u, hu, hleft, hlegal⟩ := exec_micro_stepsLeft hi s.elapse
  have engine : engineMove s = .next u := by simp only [engineMove, hi, hu]
  have hph := decodeU_op_ph hi
  simp only [step, agentStep]
  split
  · exact ⟨u, engine, .inr (.inr ⟨hleft, hlegal⟩)⟩
  · next r rest hp =>
    split
    · next hm =>
      cases he : r.ev with
      | reset => exact ⟨_, rfl, .inl rfl⟩
      | txn w =>
        have hx : decodeX w = .legal .rdstat := by
          simpa [State.hostMoves, State.accepts, he, State.ph, hph] using (Bool.and_eq_true_iff.mp hm).1
        refine ⟨_, by simp only [hostMove, hx]; rfl, .inr (.inl ⟨by simp, by simp, by simp [hp]⟩)⟩
    · exact ⟨u, engine, .inr (.inr ⟨hleft, hlegal⟩)⟩

/-- The same for a step of a run; a status read takes what stood at the port, or comes from a host that came forward. -/
theorem Session.step_busy {p : HostProgram} {c : Schedule} {n : Nat} {x : Session} {i : Instr}
    (hi : decodeU x.state.upc = .op i) :
    ∃ y, x.step p c n = .next y ∧
      ((y.state.upc = upcAt Phase.idle 0) ∨
       (y.state.upc = x.state.upc ∧ (y.state.port.length < x.state.port.length ∨
          (y.state.port = [] ∧ c.offers n = true))) ∨
       (stepsLeft y.state.upc + 1 = stepsLeft x.state.upc ∧ legalUpc y.state.upc)) := by
  have hb : decodeU (x.before p c n).upc = .op i := by rwa [Session.before_upc]
  obtain ⟨t, ht, h⟩ := Machine.step_busy hb
  refine ⟨⟨t, x.seen ++ seenIn x.state t⟩, by simp only [Session.step, ht], ?_⟩
  rw [Session.before_upc] at h
  rcases h with h | ⟨hu, hp, hne⟩ | h
  · exact .inl h
  · by_cases hr : c.reset n = true
    · left
      have : Machine.step (x.before p c n) = .next (x.before p c n).assertReset := by
        simp [Session.before, hr, Machine.step, agentStep, State.hostMoves, State.accepts, hostMove]
      rw [this] at ht
      cases ht
      rfl
    · refine .inr (.inl ⟨hu, ?_⟩)
      show t.port.length < _ ∨ (t.port = [] ∧ _)
      have hpos : 0 < (x.before p c n).port.length := List.length_pos_of_ne_nil hne
      rw [hp, List.length_tail]
      simp only [Session.before, hr, Bool.false_eq_true, if_false] at hpos ⊢
      split at hpos
      · next ho =>
        rw [if_pos ho]
        rcases State.length_present_port x.state (p x.seen) with h | ⟨-, h⟩
        · left; omega
        · right
          refine ⟨List.eq_nil_of_length_eq_zero ?_, ho⟩
          rw [List.length_tail, h]
      · next ho => rw [if_neg ho]; left; omega
  · exact .inr (.inr h)

/-! ### Fairness -/

/-- R243: in a run of any host program a busy engine takes its next step in the end, unless a reset comes first. -/
theorem engine_moves (p : HostProgram) (c : Schedule) (n : Nat) (x : Session) {i : Instr}
    (hi : decodeU x.state.upc = .op i) :
    ∃ k y, runHost p c k n x = .next y ∧ (y.state.upc = upcAt Phase.idle 0 ∨
      (stepsLeft y.state.upc + 1 = stepsLeft x.state.upc ∧ legalUpc y.state.upc)) := by
  -- what stands at the port, and how far it is to a step at which the host stays back
  suffices H : ∀ l d n x m, decodeU x.state.upc = .op i → x.state.port.length ≤ l → n ≤ m → m ≤ n + d →
      c.offers m = false → ∃ k y, runHost p c k n x = .next y ∧ (y.state.upc = upcAt Phase.idle 0 ∨
        (stepsLeft y.state.upc + 1 = stepsLeft x.state.upc ∧ legalUpc y.state.upc)) by
    obtain ⟨m, hm, ho⟩ := c.fair n
    exact H _ (m - n) n x m hi le_rfl hm (by omega) ho
  -- after a status read the run goes on as it does from there
  have again : ∀ {n : Nat} {x y : Session}, x.step p c n = .next y → y.state.upc = x.state.upc →
      (∃ k z, runHost p c k (n + 1) y = .next z ∧ (z.state.upc = upcAt Phase.idle 0 ∨
        (stepsLeft z.state.upc + 1 = stepsLeft y.state.upc ∧ legalUpc z.state.upc))) →
      ∃ k z, runHost p c k n x = .next z ∧ (z.state.upc = upcAt Phase.idle 0 ∨
        (stepsLeft z.state.upc + 1 = stepsLeft x.state.upc ∧ legalUpc z.state.upc)) := by
    rintro n x y hy hu ⟨k, z, hz, h⟩
    exact ⟨k + 1, z, (runHost_succ k hy).trans hz, hu ▸ h⟩
  intro l
  induction l with
  | zero =>
    intro d
    induction d with
    | zero =>
      intro n x m hi hlen hnm hmd ho
      obtain rfl : n = m := by omega
      obtain ⟨y, hy, h | ⟨-, h | ⟨-, h⟩⟩ | h⟩ := Session.step_busy (p := p) (c := c) (n := n) hi
      · exact ⟨1, y, runHost_succ 0 hy, .inl h⟩
      · omega
      · rw [ho] at h; cases h
      · exact ⟨1, y, runHost_succ 0 hy, .inr h⟩
    | succ d ih =>
      intro n x m hi hlen hnm hmd ho
      obtain ⟨y, hy, h | ⟨hu, h | ⟨hp, h⟩⟩ | h⟩ := Session.step_busy (p := p) (c := c) (n := n) hi
      · exact ⟨1, y, runHost_succ 0 hy, .inl h⟩
      · omega
      · have hne : n ≠ m := fun e => by rw [e, ho] at h; cases h
        exact again hy hu (ih (n + 1) y m (hu ▸ hi) (by simp [hp]) (by omega) (by omega) ho)
      · exact ⟨1, y, runHost_succ 0 hy, .inr h⟩
  | succ l ih =>
    intro d n x m hi hlen hnm hmd ho
    obtain ⟨y, hy, h | ⟨hu, h⟩ | h⟩ := Session.step_busy (p := p) (c := c) (n := n) hi
    · exact ⟨1, y, runHost_succ 0 hy, .inl h⟩
    · obtain ⟨m', hm', ho'⟩ := c.fair (n + 1)
      have hlen' : y.state.port.length ≤ l := by
        rcases h with h | ⟨h, -⟩
        · omega
        · simp [h]
      exact again hy hu (ih (m' - (n + 1)) (n + 1) y m' (hu ▸ hi) hlen' hm' (by omega) ho')
    · exact ⟨1, y, runHost_succ 0 hy, .inr h⟩

/-- Runs compose. -/
theorem runHost_add {p : HostProgram} {c : Schedule} {j n : Nat} {x y : Session} (k : Nat)
    (h : runHost p c j n x = .next y) : runHost p c (j + k) n x = runHost p c k (n + j) y := by
  induction j generalizing n x with
  | zero => cases h; rw [Nat.zero_add, Nat.add_zero]
  | succ j ih =>
    simp only [runHost] at h
    split at h
    · next z hz => rw [Nat.succ_add, runHost_succ _ hz, ih h, Nat.add_assoc, Nat.add_comm 1]
    · cases h
    · cases h

/-- R157, R166, R243: in a run of any host program, whatever resets it suffers, an engine with a legal micro-PC becomes
IDLE: every sequence ends, and so does every hold. -/
theorem sequence_ends (p : HostProgram) (c : Schedule) (n : Nat) (x : Session) (h : legalUpc x.state.upc) :
    ∃ k y, runHost p c k n x = .next y ∧ y.state.upc = upcAt Phase.idle 0 := by
  generalize hr : stepsLeft x.state.upc = r
  induction r generalizing n x with
  | zero =>
    cases hd : decodeU x.state.upc with
    | op i => have := stepsLeft_pos hd; omega
    | idle => exact ⟨0, x, rfl, decodeU_idle hd⟩
    | unreachable => exact absurd hd h
  | succ r ih =>
    cases hd : decodeU x.state.upc with
    | unreachable => exact absurd hd h
    | idle => exact ⟨0, x, rfl, decodeU_idle hd⟩
    | op i =>
      obtain ⟨j, y, hy, hi | ⟨hs, hl⟩⟩ := engine_moves p c n x hd
      · exact ⟨j, y, hy, hi⟩
      · obtain ⟨k, z, hz, hi⟩ := ih (n + j) y hl (by omega)
        exact ⟨j + k, z, (runHost_add k hy).trans hz, hi⟩

end Sys2Proof.Machine
end

