-- ==== Sys2Proof/Laws/PerInstr.lean ====
section
/-! SUPPORT. One law per instruction: the word the encoder gives a well-formed instruction selects a row of the opcode
table (R76, R77) that bears the instruction's mnemonic. -/

namespace Sys2Proof.Laws.EncodesTableRow

/-- The word selects a row with that mnemonic in the table of its format. -/
def selectsRow (name : String) : Encoded → Bool
  | .x w => xTable.any fun r => r.mnemonic == name && r.selects w
  | .u u => uTable.any fun r => r.mnemonic == name && r.selects u

/-- The encoded word selects a row of its format's table with the instruction's mnemonic. -/
def Statement (i : Instr) : Prop := i.wf = true → selectsRow i.mnemonic (encode i) = true

theorem nop : Statement .nop := by intro _; decide

theorem init : Statement .init := by intro _; decide

theorem compress : Statement .compress := by intro _; decide

theorem digest : Statement .digest := by intro _; decide

theorem wrblk (i : Fin 16) (v : Word) : Statement (.wrblk i v) := by
  intro _
  refine List.any_eq_true.mpr ⟨⟨"WRBLK", 0x1C300000000, 0x14000000000⟩, by decide, ?_⟩
  have field : ∀ i : Fin 16, (0b01#2 ++ (BitVec.ofFin i : BitVec 4) ++ 0b00#2) &&& 0xC3#8 = 0x40#8 := by decide
  have mask : (0x1C300000000 : BitVec 41) = X.mk true 0xC3 0 := by decide
  have value : (0x14000000000 : BitVec 41) = X.mk true 0x40 0 := by decide
  simpa [XRow.selects, mask, value, X.mk_and, X.mk_inj, Instr.mnemonic] using field i

theorem rddig (j : Fin 8) : Statement (.rddig j) := by
  intro _
  revert j
  decide

theorem rdstat : Statement .rdstat := by intro _; decide

theorem ldw (t : Fin 16) : Statement (.ldw t) := by
  intro _
  revert t
  decide

theorem exp (t : Fin 64) : Statement (.exp t) := by
  revert t
  unfold Statement
  decide

theorem wsinit : Statement .wsinit := by intro _; decide

theorem rnd (t : Fin 64) : Statement (.rnd t) := by
  intro _
  revert t
  decide

theorem acc : Statement .acc := by intro _; decide

theorem ser : Statement .ser := by intro _; decide

theorem hinit : Statement .hinit := by intro _; decide

end Sys2Proof.Laws.EncodesTableRow
end

