-- ==== Sys2Proof/Tests/Slice0.lean ====
section
/-! SUPPORT. The author's tests: ill-formed terms, words written out from the spec's encodings, single steps with the
spec's own expected values (95_test_vectors.md, named V<n>, and the examples of the rules), and for every statement of
Obligations.lean that has hypotheses a concrete state and operands that meet them. -/

namespace Sys2Proof.Tests

open Sys2Proof Sys2Proof.Machine

/-! ## Small states -/

/-- INITD = 1, H = IV, nothing else (after `INIT` completes). -/
def idleState : State where
  H := IV
  ws := Vector.replicate 8 0
  W := Vector.replicate 64 0
  mem := []
  upc := 0
  INITD := true
  DV := false
  BV := 0
  E_ADDR := false
  E_CMD := false
  E_SEQ := false
  port := []
  responses := []
  epoch := 0

/-- The block of "abc" in the block buffer (R50, V13). -/
def abcBlock : Memory :=
  Memory.setWord (Memory.setWord ((List.range 64).map fun k => (0x40 + k, 0)) 0x40 0x61626380) 0x7C 0x18

/-- All sixteen words of the "abc" block written. -/
def readyState : State := { idleState with mem := abcBlock, BV := 0xFFFF }

/-- `COMPRESS` accepted: upc = (1, 0). -/
def runningState : State := { readyState with upc := 0x040 }

/-- `DIGEST` done directly after `INIT`: DIG = serialize(IV), DV = 1 (V42). -/
def digestedState : State := { idleState with mem := Memory.setDigest [] IV, DV := true }

/-- A control word that no rule produces (R79). -/
def stuckState : State := { idleState with upc := 0x1C0 }

/-- The event `e` at the port of `s`, its wait over. -/
def present (s : State) (e : HostEvent) : State := { s with port := [⟨0, e⟩] }

/-- A projection of the state an outcome gives. -/
def after {α : Type} (o : Host.Outcome State Fault Refusal) (f : State → α) : Option α :=
  match o with
  | .next s => some (f s)
  | .fault _ => none
  | .refused _ => none

/-! ## Ill-formed terms (R77) -/

theorem test_exp_below_16_is_ill_formed : (Instr.exp 15).wf = false ∧ (Instr.exp 0).wf = false := by decide

theorem test_exp_from_16_is_well_formed : (Instr.exp 16).wf = true ∧ (Instr.exp 63).wf = true := by decide

/-! ## Decoding: words written out (V50, V13, V53) -/

theorem test_decode_commands :
    decodeX 0x10000000000 = .legal .nop ∧ decodeX 0x10000000001 = .legal .init ∧
    decodeX 0x10000000002 = .legal .compress ∧ decodeX 0x10000000003 = .legal .digest := by decide

theorem test_decode_block_writes :
    decodeX 0x14061626380 = .legal (.wrblk 0 0x61626380) ∧ decodeX 0x17880000000 = .legal (.wrblk 14 0x80000000) ∧
    decodeX 0x17cffffffff = .legal (.wrblk 15 0xFFFFFFFF) := by decide

theorem test_decode_reads :
    decodeX 0x08400000000 = .legal (.rddig 1) ∧ decodeX 0x09c00000000 = .legal (.rddig 7) ∧
    decodeX 0x080ffffffff = .legal (.rddig 0) ∧ decodeX 0x004deadbeef = .legal .rdstat := by decide

theorem test_decode_schedule_words :
    decodeU 0x040 = .op (.ldw 0) ∧ decodeU 0x04F = .op (.ldw 15) ∧ decodeU 0x050 = .op (.exp 16) ∧
    decodeU 0x060 = .op (.exp 32) ∧ decodeU 0x07F = .op (.exp 63) := by decide

theorem test_decode_other_control_words :
    decodeU 0x080 = .op .wsinit ∧ decodeU 0x0C1 = .op (.rnd 1) ∧ decodeU 0x0FF = .op (.rnd 63) ∧
    decodeU 0x100 = .op .acc ∧ decodeU 0x140 = .op .ser ∧ decodeU 0x180 = .op .hinit ∧ decodeU 0 = .idle := by decide

/-- R78, one word of each class from V51; CTRL codes have no ignored bit. -/
theorem test_decode_illegal_words :
    decodeX 0x14100000000 = .illegal .misaligned ∧ decodeX 0x13c00000000 = .illegal .reserved ∧
    decodeX 0x0fc00000000 = .illegal .reserved ∧ decodeX 0x00000000000 = .illegal .readCtrl ∧
    decodeX 0x10400000000 = .illegal .writeStatus ∧ decodeX 0x07c00000000 = .illegal .readBlock ∧
    decodeX 0x18000000000 = .illegal .writeDigest ∧ decodeX 0x10080000001 = .illegal .reservedCommand := by decide

/-- R79: ph = 7, and an index in a phase that has none. -/
theorem test_decode_unreachable_control_words :
    decodeU 0x1C0 = .unreachable ∧ decodeU 0x081 = .unreachable ∧ decodeU 0x001 = .unreachable := by decide

/-! ## Word operations: the discriminating cases of V1 to V5 -/

theorem test_rotations_and_shifts :
    rotr 0x12345678 22 = 0xD159E048 ∧ rotr 0x80000000 1 = 0x40000000 ∧ shr 0x80000000 3 = 0x10000000 := by decide

theorem test_choose_majority :
    Ch 0xFFFF0000 0x12345678 0x9ABCDEF0 = 0x1234DEF0 ∧ Maj 0xFFFF0000 0x12345678 0x9ABCDEF0 = 0x9ABC5670 := by decide

theorem test_sigmas :
    ssig0 0x61626380 = 0x940E90EF ∧ ssig1 0x61626380 = 0x7DA86405 ∧ bsig0 0x61626380 = 0x8DD59276 ∧
    bsig1 0x61626380 = 0xC0B865F2 := by decide

/-! ## Host transactions -/

/-- V51: NOP from reset. -/
theorem test_nop :
    after (step (present State.reset (.txn 0x10000000000))) (fun s => (s.responses, s.statusWord)) =
      some ([⟨.ok, 0⟩], 0) := by decide

/-- R151: INIT clears DV and starts HINIT; INITD is not yet set. -/
theorem test_init_starts_hinit :
    after (step (present State.reset (.txn 0x10000000001))) (fun s => (s.upc, s.INITD, s.responses)) =
      some (0x180, false, [⟨.ok, 0⟩]) := by decide

/-- V53: COMPRESS accepted, upc = (1, 0). -/
theorem test_compress_starts_ldw :
    after (step (present readyState (.txn 0x10000000002))) (fun s => (s.upc, s.BV, s.responses)) =
      some (0x040, 0xFFFF, [⟨.ok, 0⟩]) := by decide

/-- V51: COMPRESS from reset. -/
theorem test_compress_from_reset_faults :
    after (step (present State.reset (.txn 0x10000000002))) (fun s => (s.upc, s.statusWord, s.responses)) =
      some (0, 0x40, [⟨.err, 0⟩]) := by decide

/-- R153: DIGEST does not clear DV. -/
theorem test_digest_keeps_dv :
    after (step (present digestedState (.txn 0x10000000003))) (fun s => (s.upc, s.DV)) = some (0x140, true) := by decide

/-- V51: DIGEST from reset. -/
theorem test_digest_from_reset_faults :
    after (step (present State.reset (.txn 0x10000000003))) (fun s => (s.upc, s.statusWord, s.responses)) =
      some (0, 0x40, [⟨.err, 0⟩]) := by decide

/-- R154's example: the four bytes, most significant first, and STATUS. -/
theorem test_wrblk :
    after (step (present idleState (.txn 0x14061626380)))
      (fun s => (s.readByte 0x40, s.readByte 0x41, s.readByte 0x42, s.readByte 0x43, s.statusWord)) =
      some (0x61, 0x62, 0x63, 0x80, 0x00010002) := by decide

/-- V51: a lone WRBLK 3 from reset gives STATUS = 0x00080000. -/
theorem test_wrblk_from_reset :
    after (step (present State.reset (.txn 0x14c12345678))) (fun s => (s.statusWord, s.responses)) =
      some (0x00080000, [⟨.ok, 0⟩]) := by decide

/-- V42: the last word of serialize(IV) is IV[7]. -/
theorem test_rddig :
    after (step (present digestedState (.txn 0x09c00000000))) (fun s => s.responses) =
      some [⟨.ok, 0x5BE0CD19⟩] := by decide

/-- V51: RDDIG from reset. -/
theorem test_rddig_from_reset_faults :
    after (step (present State.reset (.txn 0x08000000000))) (fun s => (s.statusWord, s.responses)) =
      some (0x40, [⟨.err, 0⟩]) := by decide

/-- V53: RDSTAT accepted while a COMPRESS runs; the micro-PC stays. -/
theorem test_rdstat_while_busy :
    after (step (present runningState (.txn 0x00400000000))) (fun s => (s.upc, s.responses)) =
      some (0x040, [⟨.ok, 0xFFFF000B⟩]) := by decide

/-- V53: a WRBLK presented while a COMPRESS runs is held, and the engine steps. -/
theorem test_wrblk_held_while_busy :
    after (step (present runningState (.txn 0x14000000000))) (fun s => (s.upc, s.responses, s.port.length)) =
      some (0x041, [], 1) := by decide

/-- R202's example. -/
theorem test_address_error :
    after (step (present State.reset (.txn 0x14100000000))) (fun s => (s.statusWord, s.responses)) =
      some (0x10, [⟨.err, 0⟩]) := by decide

/-- R203's example. -/
theorem test_command_error :
    after (step (present State.reset (.txn 0x10000000004))) (fun s => (s.statusWord, s.responses)) =
      some (0x20, [⟨.err, 0⟩]) := by decide

/-! ## Micro-operations -/

/-- V13: LDW 0. -/
theorem test_ldw_first :
    after (step runningState) (fun s => (s.W.get 0, s.upc)) = some (0x61626380, 0x041) := by decide

/-- V13: LDW 15 leads to EXP 16. -/
theorem test_ldw_last :
    after (exec (.ldw 15) runningState) (fun s => (s.W.get 15, s.upc)) = some (0x18, 0x050) := by decide

/-- R122's example: EXP 17 with W[15] = 0x18. -/
theorem test_exp_17 :
    after (exec (.exp 17) { runningState with W := (Vector.replicate 64 0).set 15 0x18 })
      (fun s => (s.W.get 17, s.upc)) = some (0x000F0000, 0x052) := by decide

/-- V12: W[16] of the block of bytes 0xFF; and where EXP 63 leads. -/
theorem test_exp_wraps_and_ends_the_phase :
    after (exec (.exp 16) { runningState with W := Vector.replicate 64 0xFFFFFFFF }) (fun s => s.W.get 16) =
      some 0x203FFFFC ∧
    after (exec (.exp 63) runningState) (fun s => s.upc) = some 0x080 := by decide

/-- R132's example. -/
theorem test_wsinit :
    after (exec .wsinit runningState) (fun s => (s.ws.get 0, s.ws.get 7, s.upc)) =
      some (0x6A09E667, 0x5BE0CD19, 0x0C0) := by decide

/-- V30: round 0 of "abc". -/
theorem test_rnd_0 :
    after (exec (.rnd 0) { runningState with ws := IV, W := (Vector.replicate 64 0).set 0 0x61626380 })
      (fun s => (s.ws, s.upc)) =
      some (#v[0x5D6AEBCD, 0x6A09E667, 0xBB67AE85, 0x3C6EF372, 0xFA2A4622, 0x510E527F, 0x9B05688C, 0x1F83D9AB],
        0x0C1) := by decide

/-- V32: round 63 of "abc", from the row before it and W[63] of V10; ACC is next. -/
theorem test_rnd_63 :
    after (exec (.rnd 63) { runningState with
        ws := #v[0xD39A2165, 0x04D24D6C, 0xB85E2CE9, 0xB6AE8FFF, 0xFB121210, 0x948D25B6, 0x961F4894, 0xB21BAD3D]
        W := (Vector.replicate 64 0).set 63 0x12B1EDEB })
      (fun s => (s.ws.get 0, s.ws.get 4, s.upc)) = some (0x506E3058, 0x5EF50F24, 0x100) := by decide

/-- V33: ACC of "abc". -/
theorem test_acc :
    after (exec .acc { readyState with
        ws := #v[0x506E3058, 0xD39A2165, 0x04D24D6C, 0xB85E2CE9, 0x5EF50F24, 0xFB121210, 0x948D25B6, 0x961F4894] })
      (fun s => (s.H.get 0, s.H.get 1, s.H.get 7, s.BV, s.upc)) =
      some (0xBA7816BF, 0x8F01CFEA, 0xF20015AD, 0, 0) := by decide

/-- V43: word order and byte order are both most significant first. -/
theorem test_ser :
    after (exec .ser { idleState with H := #v[1, 2, 3, 4, 5, 6, 7, 8] })
      (fun s => (s.readByte 0x80, s.readByte 0x83, s.readByte 0x9F, s.DV, s.upc)) = some (0, 1, 8, true, 0) := by decide

/-- V40. -/
theorem test_hinit :
    after (exec .hinit { idleState with H := Vector.replicate 8 0, INITD := false })
      (fun s => (s.H.get 0, s.H.get 7, s.INITD, s.upc)) = some (0x6A09E667, 0x5BE0CD19, true, 0) := by decide

/-! ## The step, and placing an instruction -/

theorem test_stuck : step stuckState = .fault .stuck := by rfl

theorem test_fetch_word_transaction :
    after (step (State.reset.withFetchWord 48 0x17c00000018)) (fun s => (s.memRead 0x7C, s.BV)) =
      some (0x18, 0x8000) := by decide

theorem test_fetch_word_micro_operation :
    after (step (State.reset.withFetchWord 16 0x180)) (fun s => (s.H.get 7, s.INITD)) =
      some (0x5BE0CD19, true) := by decide

/-- R231: reset in the middle of a sequence (V54). -/
theorem test_reset_abandons_a_sequence :
    after (step (present { runningState with upc := 0x0D1 } .reset)) (fun s => (s.upc, s.statusWord, s.epoch)) =
      some (0, 0, 1) := by decide

/-! ## Framing (V60 to V63) -/

theorem test_padding_of_the_empty_message : pad [] = 0x80 :: List.replicate 63 0 := by decide

theorem test_pad_zeros : [0, 55, 56, 64, 119, 120].map padZeros = [55, 0, 63, 55, 0, 63] := by decide

theorem test_hex : hex [0xBA, 0x0A] = ['b', 'a', '0', 'a'] := by decide

/-! ## Witnesses: the hypotheses of the statements of Obligations.lean are met

A witness bears its statement's name. The states are those above; `port` carries an event where a statement needs one. -/

/-- A held word at the port of a running engine. -/
def heldState : State := present runningState (.txn 0x10000000001)

/-- Phase 4, with the schedule and the rounds done. -/
def accState : State :=
  { readyState with upc := 0x100, W := sched readyState.block, ws := rounds IV (sched readyState.block) 64 }

theorem quiet_of_empty (n : Nat) : quietPort [] n := by
  intro r h
  cases h

theorem undisturbed_running (n : Nat) : runningState.undisturbed n := quiet_of_empty n

/-- A word other than RDSTAT never disturbs a running engine. -/
theorem undisturbed_held (n : Nat) : heldState.undisturbed n := by
  intro r h
  cases h
  exact .inr ⟨_, rfl, by decide⟩

theorem inv_idle : Invariants idleState where
  upc := by unfold legalUpc; decide
  initd := by intro _; rfl
  dvClear := by intro _; rfl
  bvFull := by unfold State.compressing; decide
  blkWritten := by decide
  digest := by decide
  schedSoFar := by decide
  schedDone := by decide
  roundsSoFar := by decide
  roundsDone := by decide
  memory := by decide

theorem abc_written : ∀ i : Fin 16, ∀ k : Fin 4, abcBlock.holds (blkAddr i + k.val) := by
  unfold Memory.holds
  decide

theorem abc_wf : abcBlock.wf := by decide

theorem inv_running : Invariants runningState where
  upc := by unfold legalUpc; decide
  initd := by intro _; rfl
  dvClear := by intro _; rfl
  bvFull := by intro _; rfl
  blkWritten := by
    intro i _ k
    exact abc_written i k
  digest := by
    intro h
    cases h
  schedSoFar := by
    intro _ k hk
    exact absurd hk (Nat.not_lt_zero _)
  schedDone := by decide
  roundsSoFar := by decide
  roundsDone := by decide
  memory := abc_wf

theorem inv_acc : Invariants accState where
  upc := by unfold legalUpc; decide
  initd := by intro _; rfl
  dvClear := by intro _; rfl
  bvFull := by intro _; rfl
  blkWritten := by
    intro i _ k
    exact abc_written i k
  digest := by
    intro h
    cases h
  schedSoFar := by
    intro h
    exact absurd h (by decide)
  schedDone := by
    intro _
    exact congrArg sched (State.block_congr rfl rfl)
  roundsSoFar := by
    intro h
    exact absurd h (by decide)
  roundsDone := by
    intro _
    rfl
  memory := abc_wf

theorem inv_digested : Invariants digestedState where
  upc := by unfold legalUpc; decide
  initd := by intro _; rfl
  dvClear := by unfold State.compressing; decide
  bvFull := by unfold State.compressing; decide
  blkWritten := by decide
  digest := by
    intro _
    refine ⟨rfl, ?_, by decide⟩
    unfold Memory.holds
    decide
  schedSoFar := by decide
  schedDone := by decide
  roundsSoFar := by decide
  roundsDone := by decide
  memory := by decide

/-! ### Word operations and encodings -/

theorem witness_RotateAndShiftMoveBits : (0 < 1 ∧ 1 < 32) ∧ (0 < 31 ∧ 31 < 32) ∧ 0 < 32 := by decide

theorem witness_ChooseAndMajorityByBit : 0 < 32 ∧ 31 < 32 := by decide

theorem witness_SigmaFunctionsByBit : 0 < 32 ∧ 31 < 32 := by decide

theorem witness_WordOperationIdentities : (0 < 2 ∧ 2 < 32) ∧ (0 < 25 ∧ 25 < 32) := by decide

theorem witness_DecodeOfEncodeIsIdentity : (Instr.exp 16).wf = true ∧ (Instr.wrblk 15 0xFFFFFFFF).wf = true := by decide

theorem witness_EncodeOfDecodeIsCanonicalWord :
    decodeU 0x0FF = .op (.rnd 63) ∧ decodeX 0x080ffffffff = .legal (.rddig 0) ∧
    decodeX 0x17cffffffff = .legal (.wrblk 15 0xFFFFFFFF) := by decide

theorem witness_TransactionRowsDecodeAsTabled :
    (0x10000000000#41 &&& 0x1FFFFFFFFFF = 0x10000000000) ∧ (0x10000000001#41 &&& 0x1FFFFFFFFFF = 0x10000000001) ∧
    (0x10000000002#41 &&& 0x1FFFFFFFFFF = 0x10000000002) ∧ (0x10000000003#41 &&& 0x1FFFFFFFFFF = 0x10000000003) ∧
    (0x17cffffffff#41 &&& 0x1C300000000 = 0x14000000000) ∧ (0x09cffffffff#41 &&& 0x1E300000000 = 0x08000000000) ∧
    (0x004deadbeef#41 &&& 0x1FF00000000 = 0x00400000000) ∧
    (∀ r ∈ xTable, r.selects 0x10000000004 = false) := by decide

theorem witness_MicroRowsDecodeAsTabled :
    (0x04F#9 &&& 0x1F0 = 0x040) ∧ (0x050#9 &&& 0x1C0 = 0x040 ∧ (0x050#9).extractLsb' 4 2 ≠ 0) ∧
    (0x080#9 &&& 0x1FF = 0x080) ∧ (0x0FF#9 &&& 0x1C0 = 0x0C0) ∧ (0x100#9 &&& 0x1FF = 0x100) ∧
    (0x140#9 &&& 0x1FF = 0x140) ∧ (0x180#9 &&& 0x1FF = 0x180) ∧
    (0x001#9 ≠ 0 ∧ ∀ r ∈ uTable, r.selects 0x001 = false) := by decide

/-- The classes at the ends of their ranges: addresses 0x41, 0x08, 0x3C, 0xA0, 0xFC, 0x00, 0x04, 0x40, 0x7C, 0x80, 0x9C
and the codes 4 and 3. -/
theorem witness_IllegalWordsClassified :
    0x41 % 4 ≠ 0 ∧ (0x08 % 4 = 0 ∧ 0x3C % 4 = 0 ∧ 0xA0 % 4 = 0 ∧ 0xFC % 4 = 0) ∧
    (0x00000000000#41).toNat / 2 ^ 40 = 0 ∧ (0x10400000000#41).toNat / 2 ^ 32 % 2 ^ 8 = 4 ∧
    (0x04000000000#41).toNat / 2 ^ 32 % 2 ^ 8 = 0x40 ∧ (0x07c00000000#41).toNat / 2 ^ 32 % 2 ^ 8 = 0x7C ∧
    (0x18000000000#41).toNat / 2 ^ 32 % 2 ^ 8 = 0x80 ∧ (0x19c00000000#41).toNat / 2 ^ 32 % 2 ^ 8 = 0x9C ∧
    (0x10000000004#41).toNat % 2 ^ 32 = 4 ∧ (0x10000000003#41).toNat % 2 ^ 32 < 4 := by decide

/-! ### The step -/

theorem witness_EngineStepRunsItsControlWord :
    (decodeU runningState.upc = .op (.ldw 0) ∧ runningState.undisturbed 1) ∧
    decodeU heldState.upc = .op (.ldw 0) ∧ heldState.undisturbed 1 :=
  ⟨⟨by decide, undisturbed_running 1⟩, by decide, undisturbed_held 1⟩

theorem witness_HostStepRunsItsTransaction :
    ((present idleState (.txn 0x10000000001)).port = [⟨0, .txn 0x10000000001⟩] ∧
      decodeX 0x10000000001 = .legal .init ∧ (present idleState (.txn 0x10000000001)).ph = Phase.idle) ∧
    (present runningState (.txn 0x00400000000)).port = [⟨0, .txn 0x00400000000⟩] ∧
      decodeX 0x00400000000 = .legal .rdstat := by decide

theorem witness_TransactionsAreHeldWhileBusy :
    (Instr.isTransaction .init = true ∧ Instr.init ≠ .rdstat ∧ runningState.ph ≠ Phase.idle) ∧
    heldState.port = [⟨0, .txn 0x10000000001⟩] ∧ decodeX 0x10000000001 ≠ .legal .rdstat ∧
      decodeU heldState.upc = .op (.ldw 0) := by decide

theorem witness_IdleEngineRests : idleState.port = [] ∧ idleState.upc = U.mk 0 0 := by decide

theorem witness_UnreachableControlWordIsStuck :
    (stuckState.ph = 7 ∧ stuckState.port = []) ∧
    ((present stuckState (.txn 0x10000000000)).ph ≠ 0 ∧ decodeX 0x10000000000 ≠ .legal .rdstat) ∧
    (State.t { idleState with upc := 0x001 } ≠ 0 ∧ State.ph { idleState with upc := 0x001 } = 0) ∧
    State.t { idleState with upc := 0x1BF } ≠ 0 ∧ State.ph { idleState with upc := 0x1BF } = 6 := by decide

/-! ### Host transactions -/

theorem witness_NopAnswersOkAndChangesNothing : idleState.ph = Phase.idle ∧ runningState.ph ≠ Phase.idle := by decide

theorem witness_InitStartsHashInitialisation : idleState.ph = Phase.idle := by decide

theorem witness_CompressStartsTheSchedule :
    readyState.ph = Phase.idle ∧ readyState.INITD = true ∧ readyState.BV = 0xFFFF := by decide

theorem witness_DigestStartsTheSerializer : idleState.ph = Phase.idle ∧ idleState.INITD = true := by decide

theorem witness_WrblkStoresOneBlockWord : idleState.ph = Phase.idle := by decide

theorem witness_RddigAnswersOneDigestWord : digestedState.ph = Phase.idle ∧ digestedState.DV = true := by decide

theorem witness_RddigAnswersTheHashWord :
    Invariants digestedState ∧ digestedState.ph = Phase.idle ∧ digestedState.DV = true :=
  ⟨inv_digested, by decide, by decide⟩

theorem witness_StatusReadsBusyWhileCompressing :
    Invariants runningState ∧ runningState.compressing ∧ runningState.E_ADDR = false ∧ runningState.E_CMD = false ∧
      runningState.E_SEQ = false :=
  ⟨inv_running, .inl (by decide), rfl, rfl, rfl⟩

theorem witness_WrittenWordIsLoadedAsScheduleWord : idleState.ph = Phase.idle := by decide

/-! ### Micro-operations -/

theorem witness_ExpExpandsOneScheduleWord : 16 ≤ (16 : Fin 64).val ∧ 16 ≤ (63 : Fin 64).val := by decide

theorem witness_MicroOperationsRaiseNothing :
    (Instr.exp 63).wf = true ∧ (Instr.exp 63).isTransaction = false := by decide

theorem witness_MicroPcFollowsItsTable :
    (runningState.undisturbed 1 ∧ runningState.upc = U.mk 1 (BitVec.ofNat 6 0)) ∧
    (State.upc { idleState with upc := 0x07F } = U.mk 1 63) ∧ (State.upc { idleState with upc := 0x080 } = U.mk 2 0) ∧
    (State.upc { idleState with upc := 0x0FE } = U.mk 3 (BitVec.ofNat 6 62)) ∧
    (State.upc { idleState with upc := 0x0FF } = U.mk 3 63) ∧ accState.upc = U.mk 4 0 ∧
    (present readyState (.txn 0x10000000002)).upc = U.mk 0 0 ∧
    (present readyState (.txn 0x10000000002)).port = [⟨0, .txn 0x10000000002⟩] :=
  ⟨⟨undisturbed_running 1, by decide⟩, by decide, by decide, by decide, by decide, by decide, by decide, rfl⟩

/-! ### Faults and reset -/

theorem witness_IllegalWordSetsOneFlag :
    ((present idleState (.txn 0x14100000000)).port = [⟨0, .txn 0x14100000000⟩] ∧
      decodeX 0x14100000000 = .illegal .misaligned ∧ (present idleState (.txn 0x14100000000)).ph = Phase.idle) ∧
    (present runningState (.txn 0x14100000000)).port = [⟨0, .txn 0x14100000000⟩] ∧
      decodeU (present runningState (.txn 0x14100000000)).upc = .op (.ldw 0) := by decide

theorem witness_SeqErrorWhereStateIsNotValid :
    State.reset.ph = Phase.idle ∧ State.reset.INITD = false ∧ State.reset.DV = false ∧ idleState.BV ≠ 0xFFFF := by decide

/-- A step that is no reset, with a flag set, and a step that is one. -/
theorem witness_FaultFlagsAreSticky :
    (∃ t, step { runningState with E_SEQ := true } = .next t ∧ ¬ State.resetsNext { runningState with E_SEQ := true }) ∧
    ∃ t, step (present runningState .reset) = .next t ∧ (present runningState .reset).resetsNext := by
  refine ⟨⟨_, rfl, ?_⟩, _, rfl, _, _, rfl, by decide, rfl⟩
  rintro ⟨r, rest, h, -⟩
  cases h

theorem witness_ResetGivesIdleWithFlagsClear :
    (present runningState .reset).port = [⟨0, .reset⟩] ∧ (⟨0, .reset⟩ : Request).wait = 0 := by decide

/-! ### Invariants -/

/-- The last step of a COMPRESS. -/
theorem witness_EveryStepKeepsTheInvariants : Invariants accState ∧ ∃ t, step accState = .next t := ⟨inv_acc, _, rfl⟩

theorem witness_EveryStepKeepsMemoryCanonical : runningState.mem.wf ∧ ∃ t, step runningState = .next t :=
  ⟨abc_wf, _, rfl⟩

theorem witness_EveryStepKeepsTheMicroPcLegal : legalUpc runningState.upc ∧ ∃ t, step runningState = .next t :=
  ⟨inv_running.upc, _, rfl⟩

theorem witness_InvariantStatesNeverStop : Invariants idleState := inv_idle

theorem witness_OnlyHinitAccAndResetWriteH :
    (∃ t, step runningState = .next t) ∧ runningState.upc ≠ U.mk 6 0 ∧ runningState.upc ≠ U.mk 4 0 ∧
      ¬ runningState.resetsNext := by
  refine ⟨⟨_, rfl⟩, by decide, by decide, ?_⟩
  rintro ⟨r, rest, h, -⟩
  cases h

/-! ### Runs -/

theorem witness_SchedulePhaseComputesSched : runningState.upc = U.mk 1 0 ∧ runningState.undisturbed 64 :=
  ⟨by decide, undisturbed_running 64⟩

theorem witness_CompressRunComputesCompress : heldState.upc = U.mk 1 0 ∧ heldState.undisturbed 130 :=
  ⟨by decide, undisturbed_held 130⟩

theorem witness_EngineIsIdleAfterItsStepCount :
    (∀ c, runningState.undisturbed c) ∧ runningState.upc = U.mk 1 (BitVec.ofNat 6 0) ∧
    (State.upc { idleState with upc := 0x07F } = U.mk 1 (BitVec.ofNat 6 63)) ∧
    (State.upc { idleState with upc := 0x080 } = U.mk 2 0) ∧
    (State.upc { idleState with upc := 0x0C0 } = U.mk 3 (BitVec.ofNat 6 0)) ∧
    (State.upc { idleState with upc := 0x0FF } = U.mk 3 (BitVec.ofNat 6 63)) ∧ accState.upc = U.mk 4 0 :=
  ⟨undisturbed_running, by decide, by decide, by decide, by decide, by decide, by decide⟩

theorem witness_CommandsMatchTheBigStepView :
    (present readyState (.txn 0x10000000002)).upc = U.mk 0 0 ∧ readyState.INITD = true ∧ readyState.BV = 0xFFFF ∧
    quietPort [] 130 ∧ ¬ (idleState.INITD = true ∧ idleState.BV = 0xFFFF) ∧ State.reset.INITD = false :=
  ⟨by decide, rfl, rfl, quiet_of_empty 130, by decide, rfl⟩

/-- Two engines that differ in W and ws. -/
theorem witness_CompressResultIgnoresOldScratch :
    runningState.upc = U.mk 1 0 ∧ State.H { runningState with ws := IV, W := Vector.replicate 64 1 } = runningState.H ∧
    runningState.undisturbed 130 ∧ State.undisturbed { runningState with ws := IV, W := Vector.replicate 64 1 } 130 :=
  ⟨by decide, rfl, undisturbed_running 130, quiet_of_empty 130⟩

theorem witness_DriverReturnsTheDigest :
    ∃ ls D, driver [] = .ok ls ∧ sha256 [] = .ok D ∧
      State.port { idleState with port := requestsOf [3, 0, 7] ls } = requestsOf [3, 0, 7] ls ∧
      State.upc { idleState with port := requestsOf [3, 0, 7] ls } = U.mk 0 0 := ⟨_, _, rfl, rfl, rfl, by decide⟩

/-! ### Functions -/

theorem witness_ScheduleObeysItsRecurrence : (15 : Fin 64).val < 16 ∧ 16 ≤ (16 : Fin 64).val := by decide

theorem witness_PaddingFillsWholeBlocks :
    ([] : Message).length < 2 ^ 61 ∧ (List.replicate 56 0x61 : Message).length < 2 ^ 61 := by decide

theorem witness_PaddingIsInjective : ([0x61] : Message).length < 2 ^ 61 ∧ pad [0x61] = pad [0x61] := ⟨by decide, rfl⟩

theorem witness_LengthOverflowExactlyFromTheLimit :
    2 ^ 61 ≤ (List.replicate (2 ^ 61) 0 : Message).length ∧
    (List.replicate (2 ^ 61 - 1) 0 : Message).length < 2 ^ 61 := by
  simp only [List.length_replicate]
  decide

theorem witness_HexFormHasTwoDigitsAByte :
    (0 < ([0xBA] : List Byte).length) ∧ ∃ cs, hexDigest [] = .ok cs := ⟨by decide, _, rfl⟩

/-! ## The text of programs (R82, R83; program lines of 95_test_vectors.md section 3) -/

/-- P1 line 2, with a comment. -/
theorem test_text_wrblk : readLine "WRBLK 0, 0x80000000 ; word 0".toList = some [.line (.ins (.wrblk 0 0x80000000))] := by
  decide

/-- `RAW` gives any word, an illegal one too. -/
theorem test_text_raw : readLine "RAW 0x04400000000".toList = some [.line (.raw 0x04400000000)] := by decide

/-- An index out of range is no line, nor is a micro-operation. -/
theorem test_text_refused : readLine "WRBLK 16, 0".toList = none ∧ readLine "LDW 0".toList = none := by decide

/-- P1's block as a pseudo-instruction. -/
theorem test_text_hashblk :
    readLine "HASHBLK 0x80000000, 0, 0, 0, 0, 0, 0, 0, 0, 0, 0, 0, 0, 0, 0, 0".toList =
      some (commandsOf (hashBlockLines ((Vector.replicate 16 0).set 0 0x80000000))) := by
  decide

/-- How instructions are spelled. -/
theorem test_text_spelling :
    instrText (.exp 63) = "EXP 63".toList ∧ instrText (.wrblk 10 0x80000000) = "WRBLK 10, 0x80000000".toList := by
  decide

/-- The `WAIT` loop polls until bit 0 of STATUS is 0 (R83; P4 line 19). -/
theorem test_wait_polls :
    let p := programOf [.line (.ins .compress), .wait, .line (.ins .digest)]
    let answer : Word → Seen := fun d => .response ⟨.ok, d⟩
    p [] = some 0x10000000002 ∧ p [answer 0] = some 0x00400000000 ∧
      p [answer 0, answer 0xFFFF000B] = some 0x00400000000 ∧
      p [answer 0, answer 0xFFFF000B, answer 2] = some 0x10000000003 := by
  decide

/-- A byte of BLOCKB with and without `0x` (log entry 14). -/
theorem test_text_byte : readByteText "0x8F".toList = some 0x8F ∧ readByteText "8f".toList = some 0x8F := by decide

/-- The 33-bit response words of R71: (OK, BUSY) and a fault. -/
theorem test_response_word :
    Response.word ⟨.ok, 0xFFFF000B⟩ = 0x0FFFF000B ∧ Response.word ⟨.err, 0⟩ = 0x100000000 := by decide

/-! ## Runs of a host program (R84, R168, R182, R233) -/

/-- A host that never comes forward, and a reset at every step. -/
def onlyResets : Schedule := ⟨fun _ => false, fun _ => true, fun n => ⟨n, Nat.le_refl n, rfl⟩⟩

/-- A host that comes forward at step 0 only, and no reset. -/
def offersOnce : Schedule :=
  ⟨fun n => n == 0, fun _ => false, fun n => ⟨n + 1, Nat.le_succ n, by simp⟩⟩

/-- What a field of the session after one step is. -/
def afterStep {α : Type} (o : Host.Outcome Session Fault Refusal) (f : Session → α) : Option α :=
  match o with
  | .next x => some (f x)
  | .fault _ => none
  | .refused _ => none

/-- Reset while the host's own transaction is held: it stays at the port, and the host sees the reset (R233). -/
theorem test_reset_while_held :
    afterStep (Session.step (fun _ => none) onlyResets 0 ⟨heldState, []⟩)
      (fun x => (x.state.upc, x.state.port, x.seen)) =
      some (0, [⟨0, .txn 0x10000000001⟩], [.reset]) := by decide

/-- The host presents its transaction and sees the response; IDLE between two transactions is not finished (R168). -/
theorem test_program_goes_on :
    let p := programOf [.line (.ins .nop), .line (.ins .rdstat)]
    afterStep (Session.step p offersOnce 0 ⟨State.reset, []⟩)
      (fun x => (x.state.upc, x.state.port, x.seen, p x.seen)) =
      some (0, [], [.response ⟨.ok, 0⟩], some 0x00400000000) := by decide

end Sys2Proof.Tests
end

section
/-! PROOFS. The statements about the state (10_state.md): HINIT's initial values (O35), and the canonical form of memory
along every step (O45), from what one instruction can do to memory. -/

namespace Sys2Proof.Machine

/-! ### HINIT (R145) -/

/-- Settles O35: the control word of HINIT is (6, 0), and IV is the printed table. -/
theorem hinitLoadsTheInitialValues : Obligations.HinitLoadsTheInitialValues := by
  unfold Obligations.HinitLoadsTheInitialValues
  exact ⟨decodeU_hinit, fun _ => rfl⟩

/-! ### Memory under an instruction -/

/-- A transaction whose effect leaves memory alone leaves it alone when it is held, too. -/
theorem whenIdle_mem {s t : State} {f : State → State} (h : whenIdle s f = .next t) (hf : (f s).mem = s.mem) :
    t.mem = s.mem := by
  rcases whenIdle_cases h with ⟨-, rfl⟩ | ⟨-, rfl⟩
  · exact hf
  · rfl

theorem execCompress_mem {s t : State} (h : execCompress s = .next t) : t.mem = s.mem :=
  whenIdle_mem h (by split <;> simp)

theorem execDigest_mem {s t : State} (h : execDigest s = .next t) : t.mem = s.mem :=
  whenIdle_mem h (by split <;> simp)

theorem execRddig_mem {j : Fin 8} {s t : State} (h : execRddig j s = .next t) : t.mem = s.mem :=
  whenIdle_mem h (by split <;> simp)

theorem execNop_mem {s t : State} (h : execNop s = .next t) : t.mem = s.mem := whenIdle_mem h rfl

theorem execInit_mem {s t : State} (h : execInit s = .next t) : t.mem = s.mem := whenIdle_mem h rfl

theorem execExp_mem {t : Fin 64} {s u : State} (h : execExp t s = .next u) : u.mem = s.mem := by
  unfold execExp at h
  split at h <;> cases h
  rfl

/-- WRBLK writes one block word, unless it is held (R154, R157). -/
theorem execWrblk_mem {k : Fin 16} {v : Word} {s t : State} (h : execWrblk k v s = .next t) :
    t.mem = s.mem ∨ t.mem = s.mem.setWord (blkAddr k) v := by
  rcases whenIdle_cases h with ⟨-, rfl⟩ | ⟨-, rfl⟩
  · exact .inr rfl
  · exact .inl rfl

theorem execSer_mem {s t : State} (h : execSer s = .next t) : t.mem = s.mem.setDigest s.H := by
  unfold execSer at h
  rw [← Host.Outcome.next.inj h]

/-- What an instruction can do to memory: WRBLK writes a block word, SER the digest buffer, and no other instruction
writes at all (R35, R154, R147). -/
theorem exec_mem_cases {i : Instr} {s t : State} (h : exec i s = .next t) :
    t.mem = s.mem ∨
    (∃ k v, i = .wrblk k v ∧ t.mem = s.mem.setWord (blkAddr k) v) ∨
    (i = .ser ∧ t.mem = s.mem.setDigest s.H) := by
  cases i with
  | nop => exact .inl (execNop_mem h)
  | init => exact .inl (execInit_mem h)
  | compress => exact .inl (execCompress_mem h)
  | digest => exact .inl (execDigest_mem h)
  | wrblk k v => exact (execWrblk_mem h).imp_right fun hm => .inl ⟨k, v, rfl, hm⟩
  | rddig j => exact .inl (execRddig_mem h)
  | exp t => exact .inl (execExp_mem h)
  | ser => exact .inr (.inr ⟨rfl, execSer_mem h⟩)
  | rdstat | ldw | wsinit | rnd | acc | hinit => cases h; exact .inl rfl

/-! ### The canonical form of memory (R35, R56) -/

/-- A block word lies inside the buffers. -/
theorem blkAddr_in_buffers (k : Fin 16) : Config.blkBase ≤ blkAddr k ∧ blkAddr k + 3 < Config.digEnd := by
  simp only [blkAddr, Config.blkBase, Config.digEnd]
  omega

/-- Every instruction keeps the canonical form of memory. -/
theorem exec_mem_wf {i : Instr} {s t : State} (hs : s.mem.wf) (h : exec i s = .next t) : t.mem.wf := by
  rcases exec_mem_cases h with hm | ⟨k, v, -, hm⟩ | ⟨-, hm⟩
  · rwa [hm]
  · rw [hm]
    exact Memory.setWord_wf v hs (blkAddr_in_buffers k)
  · rw [hm]
    exact Memory.setDigest_wf s.H hs

theorem Memory.wf_nil : Memory.wf [] := ⟨.nil, by simp⟩

/-- Settles O45, by the cases of a step: an instruction of the engine or of the host, the idle state, reset, a fault. -/
theorem everyStepKeepsMemoryCanonical : Obligations.EveryStepKeepsMemoryCanonical := by
  unfold Obligations.EveryStepKeepsMemoryCanonical
  intro s t hs h
  rcases step_cases h with ⟨i, -, -, hx⟩ | ⟨-, -, rfl⟩ | ⟨r, rest, -, -, -, rfl⟩ | ⟨r, rest, w, i, -, -, -, -, hx⟩ |
    ⟨r, rest, w, c, -, -, -, -, rfl⟩
  · exact exec_mem_wf (s := s.elapse) hs hx
  · exact hs
  · exact Memory.wf_nil
  · exact exec_mem_wf hs hx
  · exact hs

end Sys2Proof.Machine
end

section
/-! PROOFS. The statements about the encodings (30_encoding.md): the rows of the tables of host transactions (O11) and
of control words (O12). A row's mask and value are read field by field, and each decoder is inverted once. -/

namespace Sys2Proof

/-! ### Fields under a mask -/

/-- A mask and a value that are put together from fields test each field of the word on its own (R76). -/
theorem X.and_mk_eq_mk {w : BitVec 41} {m v : Bool} {ma va : BitVec 8} {md vd : Word} :
    w &&& X.mk m ma md = X.mk v va vd ↔ (X.wr w && m) = v ∧ X.addr w &&& ma = va ∧ X.wdata w &&& md = vd := by
  conv_lhs => rw [X.eq_mk w, X.mk_and, X.mk_inj]

/-- A mask acts on each field of a control word (R77). -/
theorem U.mk_and (p p' : BitVec 3) (t t' : BitVec 6) : U.mk p t &&& U.mk p' t' = U.mk (p &&& p') (t &&& t') :=
  BitVec.and_append

/-- Two control words are equal when their fields are. -/
theorem U.mk_inj {p p' : BitVec 3} {t t' : BitVec 6} : U.mk p t = U.mk p' t' ↔ p = p' ∧ t = t' := by
  constructor
  · intro h
    exact ⟨by simpa using congrArg U.ph h, by simpa using congrArg U.t h⟩
  · rintro ⟨rfl, rfl⟩
    rfl

/-- The test of a row of control words, field by field (R77). -/
theorem U.and_mk_eq_mk {u : BitVec 9} {mp vp : BitVec 3} {mt vt : BitVec 6} :
    u &&& U.mk mp mt = U.mk vp vt ↔ U.ph u &&& mp = vp ∧ U.t u &&& mt = vt := by
  conv_lhs => rw [U.eq_mk u, U.mk_and, U.mk_inj]

/-- A mask of all ones tests the whole word: the rows of one word each. -/
theorem X.and_allOnes_eq_iff {w v : BitVec 41} : w &&& 0x1FFFFFFFFFF = v ↔ w = v := by
  rw [show (0x1FFFFFFFFFF : BitVec 41) = BitVec.allOnes 41 from rfl, BitVec.and_allOnes]

theorem U.and_allOnes_eq_iff {u v : BitVec 9} : u &&& 0x1FF = v ↔ u = v := by
  rw [show (0x1FF : BitVec 9) = BitVec.allOnes 9 from rfl, BitVec.and_allOnes]

/-! ### The rows of the table of host transactions, by field (R76) -/

theorem X.wrblkRow_iff {w : BitVec 41} :
    w &&& 0x1C300000000 = 0x14000000000 ↔ X.wr w = true ∧ X.addr w &&& 0xC3 = 0x40 := by
  rw [show (0x1C300000000 : BitVec 41) = X.mk true 0xC3 0 from rfl,
    show (0x14000000000 : BitVec 41) = X.mk true 0x40 0 from rfl, X.and_mk_eq_mk]
  simp

theorem X.rddigRow_iff {w : BitVec 41} :
    w &&& 0x1E300000000 = 0x08000000000 ↔ X.wr w = false ∧ X.addr w &&& 0xE3 = 0x80 := by
  rw [show (0x1E300000000 : BitVec 41) = X.mk true 0xE3 0 from rfl,
    show (0x08000000000 : BitVec 41) = X.mk false 0x80 0 from rfl, X.and_mk_eq_mk]
  simp

theorem X.rdstatRow_iff {w : BitVec 41} :
    w &&& 0x1FF00000000 = 0x00400000000 ↔ X.wr w = false ∧ X.addr w = Config.statusAddr := by
  rw [show (0x1FF00000000 : BitVec 41) = X.mk true (BitVec.allOnes 8) 0 from rfl,
    show (0x00400000000 : BitVec 41) = X.mk false Config.statusAddr 0 from rfl, X.and_mk_eq_mk, BitVec.and_allOnes]
  simp

/-! ### The decoder of format X -/

/-- A field of ADDR is a field of the word, 32 bits up (R70). -/
theorem X.extractLsb'_addr (w : BitVec 41) {start len : Nat} (h : start + len ≤ 8) :
    (X.addr w).extractLsb' start len = w.extractLsb' (32 + start) len := by
  ext i hi
  simp [X.addr, show start + i < 8 by omega, Nat.add_assoc]

/-- The addresses of the pattern 01ii ii00 are those that pass the decoder's tests for the block buffer. -/
theorem X.blockAddr_iff (a : BitVec 8) :
    a &&& 0xC3 = 0x40 ↔ a.extractLsb' 0 2 = 0 ∧ X.reservedAddr a = false ∧ a ≠ Config.ctrlAddr ∧
      a ≠ Config.statusAddr ∧ a < 0x80 := by
  revert a
  decide

/-- The addresses of the pattern 100j jj00 are those that pass the decoder's tests for the digest buffer. -/
theorem X.digestAddr_iff (a : BitVec 8) :
    a &&& 0xE3 = 0x80 ↔ a.extractLsb' 0 2 = 0 ∧ X.reservedAddr a = false ∧ a ≠ Config.ctrlAddr ∧
      a ≠ Config.statusAddr ∧ ¬ a < 0x80 := by
  revert a
  decide

theorem decodeX_wrblk {w : BitVec 41} (hw : X.wr w = true) (ha : X.addr w &&& 0xC3 = 0x40) :
    decodeX w = .legal (.wrblk ((X.addr w).extractLsb' 2 4).toFin (X.wdata w)) := by
  obtain ⟨halign, hres, hctrl, hstat, hlow⟩ := (X.blockAddr_iff _).mp ha
  simp only [decodeX, hw, halign, hres, hctrl, hstat, hlow, ne_eq, not_true_eq_false, Bool.false_eq_true, if_false,
    if_true]

theorem decodeX_rddig {w : BitVec 41} (hw : X.wr w = false) (ha : X.addr w &&& 0xE3 = 0x80) :
    decodeX w = .legal (.rddig ((X.addr w).extractLsb' 2 3).toFin) := by
  obtain ⟨halign, hres, hctrl, hstat, hhigh⟩ := (X.digestAddr_iff _).mp ha
  simp only [decodeX, hw, halign, hres, hctrl, hstat, hhigh, ne_eq, not_true_eq_false, Bool.false_eq_true, if_false]

theorem decodeX_rdstat {w : BitVec 41} (hw : X.wr w = false) (ha : X.addr w = Config.statusAddr) :
    decodeX w = .legal .rdstat := by
  simp [decodeX, hw, ha, Config.statusAddr, Config.ctrlAddr, X.reservedAddr]

theorem decodeCommand_legal_cases {c : Word} {i : Instr} (h : decodeCommand c = .legal i) :
    (c = 0 ∧ i = .nop) ∨ (c = 1 ∧ i = .init) ∨ (c = 2 ∧ i = .compress) ∨ (c = 3 ∧ i = .digest) := by
  unfold decodeCommand at h
  split_ifs at h with h0 h1 h2 h3 <;> cases h
  · exact .inl ⟨h0, rfl⟩
  · exact .inr (.inl ⟨h1, rfl⟩)
  · exact .inr (.inr (.inl ⟨h2, rfl⟩))
  · exact .inr (.inr (.inr ⟨h3, rfl⟩))

/-- What a legal transaction word can be, by its fields: a command, a write of the block buffer, a read of the digest
buffer or of STATUS (R76). -/
theorem decodeX_legal_cases {w : BitVec 41} {i : Instr} (h : decodeX w = .legal i) :
    (X.wr w = true ∧ X.addr w = Config.ctrlAddr ∧ decodeCommand (X.wdata w) = .legal i) ∨
    (X.wr w = true ∧ X.addr w &&& 0xC3 = 0x40 ∧ i = .wrblk ((X.addr w).extractLsb' 2 4).toFin (X.wdata w)) ∨
    (X.wr w = false ∧ X.addr w &&& 0xE3 = 0x80 ∧ i = .rddig ((X.addr w).extractLsb' 2 3).toFin) ∨
    (X.wr w = false ∧ X.addr w = Config.statusAddr ∧ i = .rdstat) := by
  simp only [decodeX] at h
  split_ifs at h with halign hres hctrl hw hstat hw hlow hw hw
  · exact .inl ⟨hw, hctrl, h⟩
  · cases h
    exact .inr (.inr (.inr ⟨by simpa using hw, hstat, rfl⟩))
  · cases h
    have ha := (X.blockAddr_iff _).mpr ⟨not_not.mp halign, by simpa using hres, hctrl, hstat, hlow⟩
    exact .inr (.inl ⟨hw, ha, rfl⟩)
  · cases h
    have ha := (X.digestAddr_iff _).mpr ⟨not_not.mp halign, by simpa using hres, hctrl, hstat, hlow⟩
    exact .inr (.inr (.inl ⟨by simpa using hw, ha, rfl⟩))

/-! ### The table of host transactions and the decoder -/

/-- A word that a row selects decodes to an instruction of the row's mnemonic. -/
theorem decodeX_of_selects {r : XRow} {w : BitVec 41} (hr : r ∈ xTable) (h : r.selects w = true) :
    ∃ i, decodeX w = .legal i ∧ i.mnemonic = r.mnemonic := by
  simp only [xTable, List.mem_cons, List.not_mem_nil, or_false] at hr
  simp only [XRow.selects, decide_eq_true_eq] at h
  rcases hr with rfl | rfl | rfl | rfl | rfl | rfl | rfl
  · exact ⟨.nop, X.and_allOnes_eq_iff.mp h ▸ rfl, rfl⟩
  · exact ⟨.init, X.and_allOnes_eq_iff.mp h ▸ rfl, rfl⟩
  · exact ⟨.compress, X.and_allOnes_eq_iff.mp h ▸ rfl, rfl⟩
  · exact ⟨.digest, X.and_allOnes_eq_iff.mp h ▸ rfl, rfl⟩
  · obtain ⟨hw, ha⟩ := X.wrblkRow_iff.mp h
    exact ⟨_, decodeX_wrblk hw ha, rfl⟩
  · obtain ⟨hw, ha⟩ := X.rddigRow_iff.mp h
    exact ⟨_, decodeX_rddig hw ha, rfl⟩
  · obtain ⟨hw, ha⟩ := X.rdstatRow_iff.mp h
    exact ⟨_, decodeX_rdstat hw ha, rfl⟩

/-- Every legal word is selected by a row. -/
theorem selects_of_decodeX_legal {w : BitVec 41} {i : Instr} (h : decodeX w = .legal i) :
    ∃ r ∈ xTable, r.selects w = true := by
  rcases decodeX_legal_cases h with ⟨hw, ha, hc⟩ | ⟨hw, ha, -⟩ | ⟨hw, ha, -⟩ | ⟨hw, ha, -⟩
  · rw [X.eq_mk w, hw, ha]
    rcases decodeCommand_legal_cases hc with ⟨hc, -⟩ | ⟨hc, -⟩ | ⟨hc, -⟩ | ⟨hc, -⟩ <;> rw [hc] <;> decide
  · exact ⟨⟨"WRBLK", _, _⟩, by simp [xTable], decide_eq_true (X.wrblkRow_iff.mpr ⟨hw, ha⟩)⟩
  · exact ⟨⟨"RDDIG", _, _⟩, by simp [xTable], decide_eq_true (X.rddigRow_iff.mpr ⟨hw, ha⟩)⟩
  · exact ⟨⟨"RDSTAT", _, _⟩, by simp [xTable], decide_eq_true (X.rdstatRow_iff.mpr ⟨hw, ha⟩)⟩

/-- No word is selected by two rows: it decodes to an instruction of either's mnemonic, and no two rows share one. -/
theorem xTable_disjoint {r r' : XRow} {w : BitVec 41} (hr : r ∈ xTable) (hr' : r' ∈ xTable) (h : r.selects w = true)
    (h' : r'.selects w = true) : r = r' := by
  obtain ⟨i, hi, hm⟩ := decodeX_of_selects hr h
  obtain ⟨i', hi', hm'⟩ := decodeX_of_selects hr' h'
  obtain rfl : i = i' := XDecoded.legal.inj (hi.symm.trans hi')
  have hnodup : (xTable.map XRow.mnemonic).Nodup := by decide
  exact List.inj_on_of_nodup_map hnodup hr hr' (hm.symm.trans hm')

/-- A word that no row selects is illegal. -/
theorem decodeX_illegal_of_no_row {w : BitVec 41} (h : ∀ r ∈ xTable, r.selects w = false) :
    ∃ c, decodeX w = .illegal c := by
  cases hd : decodeX w with
  | illegal c => exact ⟨c, rfl⟩
  | legal i =>
    obtain ⟨r, hr, hs⟩ := selects_of_decodeX_legal hd
    exact absurd hs (by simp [h r hr])

/-- Settles O11: the row's fields decide what the word decodes to, and the decoder is inverted for the rest. -/
theorem transactionRowsDecodeAsTabled : Obligations.TransactionRowsDecodeAsTabled := by
  unfold Obligations.TransactionRowsDecodeAsTabled
  intro w
  refine ⟨fun h => X.and_allOnes_eq_iff.mp h ▸ rfl, fun h => X.and_allOnes_eq_iff.mp h ▸ rfl,
    fun h => X.and_allOnes_eq_iff.mp h ▸ rfl, fun h => X.and_allOnes_eq_iff.mp h ▸ rfl,
    fun h => ?_, fun h => ?_, fun h => ?_, decodeX_illegal_of_no_row, fun r hr r' hr' => xTable_disjoint hr hr', rfl⟩
  · obtain ⟨hw, ha⟩ := X.wrblkRow_iff.mp h
    rw [decodeX_wrblk hw ha, X.extractLsb'_addr w (by decide), X.wdata]
  · obtain ⟨hw, ha⟩ := X.rddigRow_iff.mp h
    rw [decodeX_rddig hw ha, X.extractLsb'_addr w (by decide)]
  · obtain ⟨hw, ha⟩ := X.rdstatRow_iff.mp h
    exact decodeX_rdstat hw ha

/-! ### The rows of the table of control words, by field (R77) -/

theorem U.phaseRow_iff {u : BitVec 9} {p : BitVec 3} : u &&& 0x1C0 = U.mk p 0 ↔ U.ph u = p := by
  rw [show (0x1C0 : BitVec 9) = U.mk (BitVec.allOnes 3) 0 from rfl, U.and_mk_eq_mk, BitVec.and_allOnes]
  simp

theorem U.ldwRow_iff {u : BitVec 9} : u &&& 0x1F0 = 0x040 ↔ U.ph u = Phase.sched ∧ (U.t u).extractLsb' 4 2 = 0 := by
  have high : ∀ t : BitVec 6, t &&& 0x30 = 0 ↔ t.extractLsb' 4 2 = 0 := by decide
  rw [show (0x1F0 : BitVec 9) = U.mk (BitVec.allOnes 3) 0x30 from rfl,
    show (0x040 : BitVec 9) = U.mk Phase.sched 0 from rfl, U.and_mk_eq_mk, high, BitVec.and_allOnes]

/-! ### The decoder of format U -/

theorem decodeU_of_ph_sched {u : BitVec 9} (h : U.ph u = Phase.sched) :
    decodeU u = if (U.t u).extractLsb' 4 2 = 0 then .op (.ldw ((U.t u).extractLsb' 0 4).toFin)
      else .op (.exp (U.t u).toFin) := by
  simp [decodeU, h, show Phase.sched ≠ Phase.idle by decide]

theorem decodeU_of_ph_rnd {u : BitVec 9} (h : U.ph u = Phase.rnd) : decodeU u = .op (.rnd (U.t u).toFin) := by
  simp [decodeU, h, Phase.idle, Phase.sched, Phase.wsinit, Phase.rnd]

/-- Every control word with a micro-operation is selected by a row. -/
theorem selects_of_decodeU_op {u : BitVec 9} {i : Instr} (h : decodeU u = .op i) :
    ∃ r ∈ uTable, r.selects u = true := by
  have selected := Machine.decodeU_op_cases h
  clear h
  rcases selected with ⟨t, -, rfl⟩ | ⟨t, -, ht, rfl⟩ | ⟨-, rfl⟩ | ⟨t, -, rfl⟩ | ⟨-, rfl⟩ | ⟨-, rfl⟩ |
    ⟨-, rfl⟩
  · revert t; decide
  · revert t; decide
  · decide
  · revert t; decide
  · decide
  · decide
  · decide

/-- A word other than 0 that no row selects is unreachable (R77, R79). -/
theorem decodeU_unreachable_of_no_row {u : BitVec 9} (hu : u ≠ 0) (h : ∀ r ∈ uTable, r.selects u = false) :
    decodeU u = .unreachable := by
  cases hd : decodeU u with
  | unreachable => rfl
  | idle => exact absurd (Machine.decodeU_idle hd) hu
  | op i =>
    obtain ⟨r, hr, hs⟩ := selects_of_decodeU_op hd
    exact absurd hs (by simp [h r hr])

/-- Settles O12: LDW and EXP share phase 1 and differ in the high bits of t; the other rows are a phase or one word. -/
theorem microRowsDecodeAsTabled : Obligations.MicroRowsDecodeAsTabled := by
  unfold Obligations.MicroRowsDecodeAsTabled
  intro u
  have high : (U.t u).extractLsb' 4 2 = u.extractLsb' 4 2 := BitVec.extractLsb'_extractLsb'_of_le (by decide)
  have low : (U.t u).extractLsb' 0 4 = u.extractLsb' 0 4 := BitVec.extractLsb'_extractLsb'_of_le (by decide)
  refine ⟨fun h => ?_, fun h ht => ?_, fun h => U.and_allOnes_eq_iff.mp h ▸ Machine.decodeU_wsinit,
    fun h => decodeU_of_ph_rnd (U.phaseRow_iff.mp h), fun h => U.and_allOnes_eq_iff.mp h ▸ Machine.decodeU_acc,
    fun h => U.and_allOnes_eq_iff.mp h ▸ Machine.decodeU_ser,
    fun h => U.and_allOnes_eq_iff.mp h ▸ Machine.decodeU_hinit, fun h => h ▸ rfl, decodeU_unreachable_of_no_row⟩
  · obtain ⟨hp, ht⟩ := U.ldwRow_iff.mp h
    rw [decodeU_of_ph_sched hp, if_pos ht, low]
  · rw [decodeU_of_ph_sched (U.phaseRow_iff.mp h), if_neg (high ▸ ht), U.t]

end Sys2Proof
end

section
/-! PROOFS. The statements about the word operations (40_word_ops.md): addition (O1), rotation and shift (O3), choose and
majority (O4), the sigma functions (O5), packing and unpacking (O6). Each operation is described once by its value or by
its bits. -/

namespace Sys2Proof.Machine

/-! ### Addition (R100) -/

theorem toNat_add32 (x y : Word) : (add32 x y).toNat = (x.toNat + y.toNat) % 2 ^ 32 :=
  BitVec.toNat_add x y

/-- Settles O1. -/
theorem addWrapsModulo2Pow32 : Obligations.AddWrapsModulo2Pow32 := by
  unfold Obligations.AddWrapsModulo2Pow32
  exact toNat_add32

/-! ### Rotation and shift (R102, R103) -/

/-- Within the amounts of R102, the two shifts are the library's rotation, which takes its amount modulo the width. -/
theorem rotr_eq_rotateRight (x : Word) {n : Nat} (hn : n < 32) : rotr x n = x.rotateRight n :=
  (BitVec.rotateRight_eq_rotateRightAux_of_lt hn).symm

/-- A bit below `32 - n` comes down from `i + n`; the others re-enter from the bits that left at bit 0 (R102). -/
theorem getLsbD_rotr (x : Word) {n i : Nat} (hn : n < 32) (hi : i < 32) :
    (rotr x n).getLsbD i = x.getLsbD ((i + n) % 32) := by
  rw [rotr_eq_rotateRight x hn, BitVec.getLsbD_rotateRight, Nat.mod_eq_of_lt hn]
  by_cases h : i < 32 - n
  · rw [decide_eq_true h, cond_true, Nat.mod_eq_of_lt (by omega), Nat.add_comm]
  · rw [decide_eq_false h, cond_false, decide_eq_true hi, Bool.true_and]
    congr 1
    omega

theorem toNat_shr (x : Word) (n : Nat) : (shr x n).toNat = x.toNat / 2 ^ n := by
  rw [shr, BitVec.toNat_ushiftRight, Nat.shiftRight_eq_div_pow]

/-- The `n` top bits of a shift are 0 (R103). -/
theorem getLsbD_shr (x : Word) (n i : Nat) :
    (shr x n).getLsbD i = (decide (i + n < 32) && x.getLsbD (i + n)) := by
  rw [shr, BitVec.getLsbD_ushiftRight, Nat.add_comm n i]
  by_cases h : i + n < 32
  · simp [h]
  · simp [h, BitVec.getLsbD_of_ge x (i + n) (by omega)]

/-- Settles O3: a rotation moves bits around the word, and a shift divides. -/
theorem rotateAndShiftMoveBits : Obligations.RotateAndShiftMoveBits := by
  unfold Obligations.RotateAndShiftMoveBits
  exact ⟨fun x n _ hn i hi => getLsbD_rotr x hn hi, toNat_shr⟩

/-! ### Choose and majority (R105, R106) -/

theorem getLsbD_Ch (x y z : Word) {i : Nat} (hi : i < 32) :
    (Ch x y z).getLsbD i = if x.getLsbD i then y.getLsbD i else z.getLsbD i := by
  simp only [Ch, BitVec.getLsbD_xor, BitVec.getLsbD_and, BitVec.getLsbD_not, hi]
  cases x.getLsbD i <;> simp

theorem getLsbD_Maj (x y z : Word) (i : Nat) :
    (Maj x y z).getLsbD i =
      (x.getLsbD i && y.getLsbD i ^^ x.getLsbD i && z.getLsbD i ^^ y.getLsbD i && z.getLsbD i) := by
  simp only [Maj, BitVec.getLsbD_xor, BitVec.getLsbD_and]

/-- The exclusive or of the three pairs is 1 exactly where two of the three are: three pairs are as odd as one (R106). -/
theorem majority_iff_two_le (a b c : Bool) :
    (a && b ^^ a && c ^^ b && c) = true ↔ 2 ≤ a.toNat + b.toNat + c.toNat := by
  revert a b c
  decide

/-- Settles O4. -/
theorem chooseAndMajorityByBit : Obligations.ChooseAndMajorityByBit := by
  unfold Obligations.ChooseAndMajorityByBit
  intro x y z i hi
  exact ⟨getLsbD_Ch x y z hi, by rw [getLsbD_Maj, majority_iff_two_le]⟩

/-! ### The sigma functions (R107 to R110) -/

/-- Settles O5, from the bits of each rotation and of each shift. -/
theorem sigmaFunctionsByBit : Obligations.SigmaFunctionsByBit := by
  unfold Obligations.SigmaFunctionsByBit
  intro x i hi
  have rotated : ∀ n < 32, (rotr x n).getLsbD i = x.getLsbD ((i + n) % 32) := fun n hn => getLsbD_rotr x hn hi
  refine ⟨?_, ?_, ?_, ?_⟩
  · simp only [bsig0, BitVec.getLsbD_xor, rotated, Nat.reduceLT]
  · simp only [bsig1, BitVec.getLsbD_xor, rotated, Nat.reduceLT]
  · simp only [ssig0, BitVec.getLsbD_xor, rotated, getLsbD_shr, Nat.reduceLT]
  · simp only [ssig1, BitVec.getLsbD_xor, rotated, getLsbD_shr, Nat.reduceLT]

/-! ### Packing and unpacking (R111, R112) -/

/-- The value of two words side by side: the high one is scaled past the low one. -/
theorem toNat_append_eq_mul_add {m n : Nat} (x : BitVec m) (y : BitVec n) :
    (x ++ y).toNat = x.toNat * 2 ^ n + y.toNat := by
  rw [BitVec.toNat_append, ← Nat.shiftLeft_add_eq_or_of_lt y.isLt, Nat.shiftLeft_eq]

theorem toNat_be32 (b0 b1 b2 b3 : Byte) :
    (be32 b0 b1 b2 b3).toNat = b0.toNat * 2 ^ 24 + b1.toNat * 2 ^ 16 + b2.toNat * 2 ^ 8 + b3.toNat := by
  simp only [be32, toNat_append_eq_mul_add]
  omega

theorem bytes32_be32 (b0 b1 b2 b3 : Byte) : bytes32 (be32 b0 b1 b2 b3) = (b0, b1, b2, b3) := by
  obtain ⟨h0, h1, h2, h3⟩ := byteOf_be32 b0 b1 b2 b3
  rw [bytes32, h0, h1, h2, h3]

/-- Settles O6: the value of `be32`, and its inverse on either side. -/
theorem bigEndianPackingIsInverse : Obligations.BigEndianPackingIsInverse := by
  unfold Obligations.BigEndianPackingIsInverse
  exact ⟨fun b0 b1 b2 b3 => ⟨toNat_be32 b0 b1 b2 b3, bytes32_be32 b0 b1 b2 b3⟩, fun x => ⟨rfl, be32_byteOf x⟩⟩

end Sys2Proof.Machine
end

section
/-! PROOFS. The statements about the message schedule (41_schedule.md): the function `sched` (O55) and the
micro-operations LDW (O30) and EXP (O31). -/

namespace Sys2Proof.Machine

/-! ### Control words as numbers (R77) -/

/-- A control word is the number 64 · ph + t. -/
theorem upcAt_eq_ofNat (ph : BitVec 3) {n : Nat} (h : n < 64) : upcAt ph n = BitVec.ofNat 9 (64 * ph.toNat + n) := by
  apply BitVec.eq_of_toNat_eq
  simp only [upcAt, U.mk, toNat_append_eq_mul_add, BitVec.toNat_ofNat]
  omega

/-- The control word of schedule index `n`. -/
theorem upcAt_sched {n : Nat} (h : n < 64) : upcAt Phase.sched n = BitVec.ofNat 9 (0x040 + n) :=
  upcAt_eq_ofNat Phase.sched h

/-! ### One word of the schedule (R121, R122) -/

theorem vector_get_set_self {α : Type} {n : Nat} (W : Vector α n) (t : Fin n) (v : α) :
    (W.set t.val v t.isLt).get t = v := by
  rw [Vector.get_eq_getElem, Vector.getElem_set_self]

theorem vector_get_set_ne {α : Type} {n : Nat} (W : Vector α n) {t : Nat} (ht : t < n) {k : Fin n} (h : k.val ≠ t)
    (v : α) : (W.set t v ht).get k = W.get k := by
  rw [Vector.get_eq_getElem, Vector.get_eq_getElem, Vector.getElem_set_ne ht k.isLt h.symm]

/-- Settles O30: only the word at index `t` is replaced, by the block word at 0x40 + 4t. -/
theorem ldwLoadsOneScheduleWord : Obligations.LdwLoadsOneScheduleWord := by
  unfold Obligations.LdwLoadsOneScheduleWord
  intro s t
  refine ⟨?_, _, rfl, ?_, ?_, rfl⟩
  · rw [← upcAt_sched (by omega), decodeU_ldw]
  · exact vector_get_set_self s.W ⟨t.val, by omega⟩ (s.memRead (blkAddr t))
  · exact fun k hk => vector_get_set_ne s.W (by omega) hk _

/-- Settles O31: only the word at index `t` is replaced, and `advance` is the two cases of the micro-PC. -/
theorem expExpandsOneScheduleWord : Obligations.ExpExpandsOneScheduleWord := by
  unfold Obligations.ExpExpandsOneScheduleWord
  intro s t ht
  refine ⟨?_, _, execExp_of_wf ht s, ?_, ?_, rfl⟩
  · rw [← upcAt_sched t.isLt, decodeU_exp ht]
  · exact vector_get_set_self s.W t _
  · exact fun k hk => vector_get_set_ne s.W t.isLt (Fin.val_ne_of_ne hk) _

/-! ### The function `sched` (R120) -/

/-- Settles O55, by the two sides of index 16. -/
theorem scheduleObeysItsRecurrence : Obligations.ScheduleObeysItsRecurrence := by
  unfold Obligations.ScheduleObeysItsRecurrence
  exact fun B t => ⟨sched_load B t, sched_expand B t⟩

end Sys2Proof.Machine
end

section
/-! PROOFS. The statements about the compression datapath (42_compression.md): the micro-operations WSINIT (O32) and
RND (O33). -/

namespace Sys2Proof.Machine

/-! ### WSINIT (R132) -/

/-- Settles O32: the control word of WSINIT is (2, 0). -/
theorem wsinitCopiesTheHashState : Obligations.WsinitCopiesTheHashState := by
  unfold Obligations.WsinitCopiesTheHashState
  exact ⟨decodeU_wsinit, fun _ => rfl⟩

/-! ### RND (R131, R133) -/

/-- The control word of round `n`. -/
theorem upcAt_rnd {n : Nat} (h : n < 64) : upcAt Phase.rnd n = BitVec.ofNat 9 (0x0C0 + n) :=
  upcAt_eq_ofNat Phase.rnd h

/-- The two registers a round computes: a and e (R131). -/
theorem round_computes (ws : Vector Word 8) (k w : Word) :
    (round ws k w).get 0 = add32 (roundT1 ws k w) (roundT2 ws) ∧
    (round ws k w).get 4 = add32 (ws.get 3) (roundT1 ws k w) :=
  ⟨rfl, rfl⟩

/-- The six registers a round moves on by one place: b, c, d take the old a, b, c, and f, g, h the old e, f, g
(R131). -/
theorem round_shifts (ws : Vector Word 8) (k w : Word) :
    (round ws k w).get 1 = ws.get 0 ∧ (round ws k w).get 2 = ws.get 1 ∧ (round ws k w).get 3 = ws.get 2 ∧
    (round ws k w).get 5 = ws.get 4 ∧ (round ws k w).get 6 = ws.get 5 ∧ (round ws k w).get 7 = ws.get 6 :=
  ⟨rfl, rfl, rfl, rfl, rfl, rfl⟩

/-- Settles O33: a and e are computed and the other registers move on, all from the old values, and `advance` is the two
cases of the micro-PC. -/
theorem rndIsOneRound : Obligations.RndIsOneRound := by
  unfold Obligations.RndIsOneRound
  intro s t T1 T2
  obtain ⟨ha, he⟩ := round_computes s.ws (K t) (s.W.get t)
  obtain ⟨hb, hc, hd, hf, hg, hh⟩ := round_shifts s.ws (K t) (s.W.get t)
  have decoded : decodeU (BitVec.ofNat 9 (0x0C0 + t.val)) = .op (.rnd t) := by
    rw [← upcAt_rnd t.isLt, decodeU_rnd]
  exact ⟨decoded, _, rfl, ha, hb, hc, hd, he, hf, hg, hh, rfl⟩

end Sys2Proof.Machine
end

section
/-! PROOFS. The statements about initialisation and the serializer (43_init_and_serializer.md): the micro-operation SER
(O36) and the function `serialize` (O56), whose inverse packs each group of four bytes. -/

namespace Sys2Proof.Machine

/-! ### SER (R147) -/

/-- What SER does: the digest buffer, DV and the micro-PC are written, and nothing else. The written memory is an
arbitrary one here, so that comparing the two states does not evaluate it. -/
theorem execSer_writes (s : State) :
    ∃ u, exec .ser s = .next u ∧ u.mem = s.mem.setDigest s.H ∧
      u = { s with mem := u.mem, DV := true, upc := U.mk 0 0 } := by
  have hx : exec .ser s = .next { s with mem := s.mem.setDigest s.H, DV := true, upc := U.mk 0 0 } := rfl
  rw [hx]
  generalize s.mem.setDigest s.H = m
  exact ⟨_, rfl, rfl, rfl⟩

/-- Settles O36: SER's memory is the old one with H in the digest buffer, and reads inside and outside that buffer
follow. -/
theorem serWritesTheDigest : Obligations.SerWritesTheDigest := by
  unfold Obligations.SerWritesTheDigest
  refine ⟨decodeU_ser, fun s => ?_⟩
  obtain ⟨u, hx, hm, hu⟩ := execSer_writes s
  have he : u.epoch = s.epoch := by rw [hu]
  exact ⟨u, hx, State.readByte_setDigest_inside hm, State.dig_setDigest hm,
    fun a ha => State.readByte_setDigest_outside hm he ha, hu⟩

/-! ### The function `serialize` (R146) -/

/-- Byte `k` of word `i` stands at place 4i + k (R146). -/
theorem serialize_get (Hv : Vector Word 8) (i : Fin 8) (k : Fin 4) :
    (serialize Hv).get ⟨4 * i.val + k.val, by omega⟩ = byteOf (Hv.get i) k := by
  simp only [serialize, Vector.get_eq_getElem, Vector.getElem_ofFn]
  congr 2 <;> omega

/-- The word whose bytes stand from place 4i on in `D`. -/
def wordAt (D : Vector Byte 32) (i : Fin 8) : Word :=
  be32 (D.get ⟨4 * i.val + (0 : Fin 4).val, by omega⟩) (D.get ⟨4 * i.val + (1 : Fin 4).val, by omega⟩)
    (D.get ⟨4 * i.val + (2 : Fin 4).val, by omega⟩) (D.get ⟨4 * i.val + (3 : Fin 4).val, by omega⟩)

/-- Eight words from 32 bytes: the inverse of `serialize`. -/
def deserialize (D : Vector Byte 32) : Vector Word 8 := Vector.ofFn (wordAt D)

theorem deserialize_get (D : Vector Byte 32) (i : Fin 8) : (deserialize D).get i = wordAt D i := by
  simp [deserialize, Vector.get_eq_getElem]

theorem wordAt_serialize (Hv : Vector Word 8) (i : Fin 8) : wordAt (serialize Hv) i = Hv.get i := by
  simp only [wordAt, serialize_get, be32_byteOf]

theorem byteOf_wordAt (D : Vector Byte 32) (i : Fin 8) (k : Fin 4) :
    byteOf (wordAt D i) k = D.get ⟨4 * i.val + k.val, by omega⟩ := by
  obtain ⟨h0, h1, h2, h3⟩ := byteOf_be32 (D.get ⟨4 * i.val + (0 : Fin 4).val, by omega⟩)
    (D.get ⟨4 * i.val + (1 : Fin 4).val, by omega⟩) (D.get ⟨4 * i.val + (2 : Fin 4).val, by omega⟩)
    (D.get ⟨4 * i.val + (3 : Fin 4).val, by omega⟩)
  match k with
  | 0 => exact h0
  | 1 => exact h1
  | 2 => exact h2
  | 3 => exact h3

/-- Two vectors are equal when all their entries are. -/
theorem vector_eq_of_get {α : Type} {n : Nat} {v w : Vector α n} (h : ∀ i, v.get i = w.get i) : v = w :=
  Vector.ext fun i hi => h ⟨i, hi⟩

theorem deserialize_serialize (Hv : Vector Word 8) : deserialize (serialize Hv) = Hv :=
  vector_eq_of_get fun i => by rw [deserialize_get, wordAt_serialize]

/-- Every place is 4i + k for one word `i` and one byte `k`. -/
theorem serialize_deserialize (D : Vector Byte 32) : serialize (deserialize D) = D := by
  apply vector_eq_of_get
  intro n
  obtain ⟨i, k, hn⟩ : ∃ (i : Fin 8) (k : Fin 4), n = ⟨4 * i.val + k.val, by omega⟩ :=
    ⟨⟨n.val / 4, by omega⟩, ⟨n.val % 4, by omega⟩, Fin.ext (Nat.div_add_mod n.val 4).symm⟩
  rw [hn, serialize_get, deserialize_get, byteOf_wordAt]

/-- Settles O56: `deserialize` is the inverse of `serialize` on either side. -/
theorem serializeIsABijection : Obligations.SerializeIsABijection := by
  unfold Obligations.SerializeIsABijection
  exact ⟨serialize_get, Function.bijective_iff_has_inverse.mpr
    ⟨deserialize, deserialize_serialize, serialize_deserialize⟩⟩

end Sys2Proof.Machine
end

section
/-! PROOFS. The statements about the host transactions (44_host_commands.md): WRBLK (O24), RDSTAT (O27), the
next-state function of the micro-PC (O38), illegal words (O39) and NOP (O20). What an accepted transaction comes to in
an idle engine, and what the port's next word comes to in a step, is said once for all of them. -/

namespace Sys2Proof.Machine

/-! ### The word of WRBLK (R73, R76) -/

/-- The number of a WRBLK word is its three fields: write, the byte address of block word `i`, and `v`. -/
theorem wrblkNumber_eq_mk (i : Fin 16) (v : Word) :
    BitVec.ofNat 41 (0x14000000000 + i.val * 2 ^ 34 + v.toNat) = X.mk true (BitVec.ofNat 8 (blkAddr i)) v := by
  apply BitVec.eq_of_toNat_eq
  have hi := i.isLt
  have hv := v.isLt
  simp only [X.mk, toNat_append_eq_mul_add, BitVec.toNat_ofNat, BitVec.toNat_ofBool, Bool.toNat_true, blkAddr,
    Config.blkBase]
  omega

/-- The address of block word `i` has the block pattern, and its index field is `i`. -/
theorem blkAddr_fields (i : Fin 16) :
    BitVec.ofNat 8 (blkAddr i) &&& 0xC3 = 0x40 ∧ ((BitVec.ofNat 8 (blkAddr i)).extractLsb' 2 4).toFin = i := by
  revert i
  decide

theorem decodeX_mk_blkAddr (i : Fin 16) (v : Word) :
    decodeX (X.mk true (BitVec.ofNat 8 (blkAddr i)) v) = .legal (.wrblk i v) := by
  obtain ⟨pattern, index⟩ := blkAddr_fields i
  rw [decodeX_wrblk (X.wr_mk ..) (by rwa [X.addr_mk]), X.addr_mk, X.wdata_mk, index]

/-! ### Transactions in an idle engine (R150 to R155) -/

section Idle

variable {s : State} (hs : s.ph = Phase.idle)
include hs

theorem execNop_idle : execNop s = .next (s.respond .ok 0) := whenIdle_idle _ hs

theorem execInit_idle :
    execInit s = .next ({ s with DV := false, upc := upcAt Phase.hinit 0 }.respond .ok 0) := whenIdle_idle _ hs

theorem execCompress_accepted (h : s.INITD = true ∧ s.BV = bvFull) :
    execCompress s = .next ({ s with DV := false, upc := upcAt Phase.sched 0 }.respond .ok 0) := by
  rw [execCompress, whenIdle_idle _ hs, if_neg (by simp [h])]

theorem execCompress_seqError (h : ¬ (s.INITD = true ∧ s.BV = bvFull)) :
    execCompress s = .next (s.raise .seqError) := by
  have condition : s.INITD = false ∨ s.BV ≠ bvFull := by
    rwa [not_and_or, Bool.not_eq_true] at h
  rw [execCompress, whenIdle_idle _ hs, if_pos condition]

theorem execDigest_accepted (hi : s.INITD = true) :
    execDigest s = .next ({ s with upc := upcAt Phase.ser 0 }.respond .ok 0) := by
  rw [execDigest, whenIdle_idle _ hs, if_neg (by simp [hi])]

theorem execDigest_seqError (hi : s.INITD = false) : execDigest s = .next (s.raise .seqError) := by
  rw [execDigest, whenIdle_idle _ hs, if_pos hi]

theorem execRddig_accepted (j : Fin 8) (hd : s.DV = true) :
    execRddig j s = .next (s.respond .ok (s.memRead (digAddr j))) := by
  rw [execRddig, whenIdle_idle _ hs, if_neg (by simp [hd])]

theorem execRddig_seqError (j : Fin 8) (hd : s.DV = false) : execRddig j s = .next (s.raise .seqError) := by
  rw [execRddig, whenIdle_idle _ hs, if_pos hd]

end Idle

/-! ### WRBLK (R154) -/

/-- What WRBLK does in an idle engine: memory, BV and the host's side are written, and nothing else. -/
theorem execWrblk_writes {s : State} (hs : s.ph = Phase.idle) (i : Fin 16) (v : Word) :
    ∃ t, exec (.wrblk i v) s = .next t ∧ t.mem = s.mem.setWord (blkAddr i) v ∧ t.BV = setValid s.BV i ∧
      t = { s with
        mem := t.mem
        BV := t.BV
        port := s.port.tail
        responses := s.responses ++ [⟨.ok, 0⟩] } :=
  ⟨_, execWrblk_idle hs i v, rfl, rfl, rfl⟩

/-- Settles O24: the word is its fields, memory is the old one with `v` at the block word's address, and reads inside
and outside that word follow. -/
theorem wrblkStoresOneBlockWord : Obligations.WrblkStoresOneBlockWord := by
  unfold Obligations.WrblkStoresOneBlockWord
  intro s i v
  refine ⟨by rw [wrblkNumber_eq_mk, decodeX_mk_blkAddr], fun hs => ?_⟩
  obtain ⟨t, hx, hm, hbv, ht⟩ := execWrblk_writes hs i v
  have he : t.epoch = s.epoch := by rw [ht]
  have reads : ∀ a, t.readByte a = (s.memWrite (blkAddr i) v).readByte a := State.readByte_congr hm he
  have inside : ∀ k : Fin 4, t.readByte (blkAddr i + k.val) = byteOf v k := fun k => by
    rw [reads, State.readByte_memWrite_inside]
  refine ⟨t, hx, inside 0, inside 1, inside 2, inside 3, fun a ha => ?_, fun n hn => ?_, ht⟩
  · exact (reads a).trans (State.readByte_memWrite_outside s v ha)
  · rw [hbv, getLsbD_setValid s.BV i hn]

/-! ### The status word (R33) -/

/-- The seven flags of the status word, from BUSY up. -/
theorem getLsbD_statusWord_flags (s : State) :
    s.statusWord.getLsbD 0 = s.busy ∧ s.statusWord.getLsbD 1 = s.INITD ∧ s.statusWord.getLsbD 2 = s.DV ∧
    s.statusWord.getLsbD 3 = s.bfull ∧ s.statusWord.getLsbD 4 = s.E_ADDR ∧ s.statusWord.getLsbD 5 = s.E_CMD ∧
    s.statusWord.getLsbD 6 = s.E_SEQ := by
  simp only [State.statusWord, BitVec.append_ofBool, BitVec.getLsbD_concat_zero, BitVec.getLsbD_concat_succ, and_self]

/-- Above the flags stand nine zero bits and BV. -/
theorem getLsbD_statusWord_add_seven (s : State) (n : Nat) :
    s.statusWord.getLsbD (n + 7) = if n < 9 then false else s.BV.getLsbD (n - 9) := by
  simp only [State.statusWord, BitVec.append_ofBool, BitVec.getLsbD_concat_succ, BitVec.getLsbD_append,
    BitVec.getLsbD_zero]

/-- Bits 15:7 of the status word read as 0. -/
theorem getLsbD_statusWord_reserved (s : State) {n : Nat} (h7 : 7 ≤ n) (h15 : n ≤ 15) :
    s.statusWord.getLsbD n = false := by
  have bit := getLsbD_statusWord_add_seven s (n - 7)
  rwa [if_pos (by omega), Nat.sub_add_cancel h7] at bit

/-- Bits 31:16 of the status word are BV. -/
theorem getLsbD_statusWord_blockValid (s : State) (i : Nat) :
    s.statusWord.getLsbD (16 + i) = s.BV.getLsbD i := by
  have bit := getLsbD_statusWord_add_seven s (9 + i)
  rwa [if_neg (by omega), Nat.add_sub_cancel_left, show 9 + i + 7 = 16 + i by omega] at bit

/-- Settles O27: RDSTAT has no condition, and its answer is the status word. -/
theorem rdstatAnswersTheStatusWord : Obligations.RdstatAnswersTheStatusWord := by
  unfold Obligations.RdstatAnswersTheStatusWord
  refine ⟨decodeX_rdstat rfl rfl, fun s => ⟨s.statusWord, rfl, ?_⟩⟩
  obtain ⟨busy, initd, dv, bfull, eaddr, ecmd, eseq⟩ := getLsbD_statusWord_flags s
  refine ⟨?_, initd, dv, ?_, eaddr, ecmd, eseq, fun n => getLsbD_statusWord_reserved s,
    fun i _ => getLsbD_statusWord_blockValid s i⟩
  · rw [busy, State.busy, Phase.idle, bne, beq_eq_decide, decide_not]
  · rw [bfull, State.bfull, bvFull, beq_eq_decide]

/-! ### The host's step (R157, R158, R159) -/

theorem step_host {s : State} {r : Request} {rest : List Request} (hp : s.port = r :: rest)
    (hm : s.hostMoves r = true) : step s = hostMove s r.ev := by
  simp [step, agentStep, hp, hm]

section Idle

variable {s : State} {r : Request} {rest : List Request} {w : BitVec 41} (hs : s.ph = Phase.idle)
  (hp : s.port = r :: rest) (hw : r.ev = .txn w)
include hs hp hw

/-- A legal word at the port of an idle engine is its instruction. -/
theorem step_legal_idle {i : Instr} (hd : decodeX w = .legal i) : step s = exec i s := by
  rw [step_host hp (hostMoves_of_idle r hs), hw, hostMove, hd]

/-- An illegal word at the port of an idle engine raises the fault of its class. -/
theorem step_illegal_idle {c : IllegalClass} (hd : decodeX w = .illegal c) : step s = .next (s.raise (errorOf c)) := by
  rw [step_host hp (hostMoves_of_idle r hs), hw, hostMove, hd]

end Idle

/-- An illegal word at the port keeps the host off: it is held while the engine runs. -/
theorem undisturbed_of_illegal {s : State} {r : Request} {rest : List Request} {w : BitVec 41} {c : IllegalClass}
    (hp : s.port = r :: rest) (hw : r.ev = .txn w) (hd : decodeX w = .illegal c) (n : Nat) : s.undisturbed n := by
  intro r' hr
  obtain rfl : r = r' := by simpa [hp] using hr
  exact .inr ⟨w, hw, by simp [hd]⟩

/-! ### Illegal words (R159, R208) -/

/-- R78 gives no class the fault SeqError. -/
theorem errorOf_ne_seqError (c : IllegalClass) : errorOf c ≠ .seqError := by
  cases c <;> decide

/-- Taking the fault of an illegal word, field by field. -/
theorem raise_errorOf (s : State) (c : IllegalClass) :
    s.raise (errorOf c) = { s with
      E_ADDR := s.E_ADDR || decide (errorOf c = .addrError)
      E_CMD := s.E_CMD || decide (errorOf c = .cmdError)
      port := s.port.tail
      responses := s.responses ++ [⟨.err, 0⟩] } := by
  have noSeq : decide (errorOf c = .seqError) = false := decide_eq_false (errorOf_ne_seqError c)
  simp only [State.raise, State.setSticky, State.respond, beq_eq_decide, noSeq, Bool.or_false]

/-- Settles O39: the host's step in an idle engine, and the engine's step while the word is held. -/
theorem illegalWordSetsOneFlag : Obligations.IllegalWordSetsOneFlag := by
  unfold Obligations.IllegalWordSetsOneFlag
  intro s r rest w c hp hw hd
  refine ⟨fun hs => ?_, fun i hi => ?_⟩
  · rw [step_illegal_idle hs hp hw hd, raise_errorOf, hp, List.tail_cons]
  · rw [step_engine hi (undisturbed_of_illegal hp hw hd 1), State.elapse_eq, hp, elapsedPort]

/-! ### NOP (R150) -/

theorem execNop_busy {s : State} (hb : s.ph ≠ Phase.idle) : execNop s = .next s := whenIdle_busy _ hb

/-- Settles O20, by the two sides of the hold. -/
theorem nopAnswersOkAndChangesNothing : Obligations.NopAnswersOkAndChangesNothing := by
  unfold Obligations.NopAnswersOkAndChangesNothing
  exact ⟨rfl, fun s => ⟨execNop_idle, execNop_busy⟩⟩

/-! ### The micro-PC under an engine step (R165) -/

/-- Where a micro-operation leaves the micro-PC is where the engine's step leaves it. -/
theorem step_engine_upc {s : State} {i : Instr} {p q : BitVec 9} (hu : s.upc = p) (hi : decodeU p = .op i)
    (hq : s.undisturbed 1) (hx : ∃ u, exec i s.elapse = .next u ∧ u.upc = q) : ∃ u, step s = .next u ∧ u.upc = q := by
  rwa [step_engine (hu ▸ hi) hq]

/-- Phase 1: LDW below index 16 and EXP from there on move to the next index alike. -/
theorem step_sched_upc {s : State} (t : Fin 64) (hq : s.undisturbed 1) (hu : s.upc = upcAt Phase.sched t.val) :
    ∃ u, step s = .next u ∧ u.upc = advance Phase.sched t Phase.wsinit := by
  by_cases ht : t.val < 16
  · rw [advance_lt (by omega)]
    exact step_engine_upc hu (decodeU_ldw ⟨t.val, ht⟩) hq ⟨_, rfl, rfl⟩
  · exact step_engine_upc hu (decodeU_exp (by omega)) hq ⟨_, execExp_of_wf (by omega) _, rfl⟩

/-- Phase 3. -/
theorem step_rnd_upc {s : State} (t : Fin 64) (hq : s.undisturbed 1) (hu : s.upc = upcAt Phase.rnd t.val) :
    ∃ u, step s = .next u ∧ u.upc = advance Phase.rnd t Phase.acc :=
  step_engine_upc hu (decodeU_rnd t) hq ⟨_, rfl, rfl⟩

/-! ### The micro-PC under a transaction (R165) -/

/-- The micro-PC that an accepted transaction leaves in an idle engine: a command loads the first control word of its
operation when the state supports it, and nothing else moves the micro-PC. -/
def hostUpc (s : State) : Instr → BitVec 9
  | .init => upcAt Phase.hinit 0
  | .compress => if s.INITD = true ∧ s.BV = bvFull then upcAt Phase.sched 0 else s.upc
  | .digest => if s.INITD = true then upcAt Phase.ser 0 else s.upc
  | _ => s.upc

theorem exec_transaction_upc {s : State} {i : Instr} (hs : s.ph = Phase.idle) (hi : i.isTransaction = true) :
    ∃ u, exec i s = .next u ∧ u.upc = hostUpc s i := by
  cases i with
  | nop => exact ⟨_, execNop_idle hs, rfl⟩
  | init => exact ⟨_, execInit_idle hs, rfl⟩
  | compress =>
    by_cases h : s.INITD = true ∧ s.BV = bvFull
    · exact ⟨_, execCompress_accepted hs h, (if_pos h).symm⟩
    · exact ⟨_, execCompress_seqError hs h, (if_neg h).symm⟩
  | digest =>
    by_cases h : s.INITD = true
    · exact ⟨_, execDigest_accepted hs h, (if_pos h).symm⟩
    · exact ⟨_, execDigest_seqError hs (by simpa using h), (if_neg h).symm⟩
  | wrblk k v => exact ⟨_, execWrblk_idle hs k v, rfl⟩
  | rddig j =>
    cases hd : s.DV with
    | true => exact ⟨_, execRddig_accepted hs j hd, rfl⟩
    | false => exact ⟨_, execRddig_seqError hs j hd, rfl⟩
  | rdstat => exact ⟨_, rfl, rfl⟩
  | ldw | exp | wsinit | rnd | acc | ser | hinit => cases hi

/-- Settles O38: the rows of the engine by phase, and those of the host by what the word decodes to. -/
theorem microPcFollowsItsTable : Obligations.MicroPcFollowsItsTable := by
  unfold Obligations.MicroPcFollowsItsTable
  refine ⟨fun s n hq => ⟨fun hu hn => ?_, fun hu => ?_, fun hu => ?_, fun hu hn => ?_, fun hu => ?_, fun hu => ?_⟩,
    fun s r rest w hu hp hw => ?_⟩
  · have moved := step_sched_upc ⟨n, by omega⟩ hq hu
    rwa [advance_lt hn] at moved
  · exact step_sched_upc 63 hq hu
  · exact step_engine_upc hu decodeU_wsinit hq ⟨_, rfl, rfl⟩
  · have moved := step_rnd_upc ⟨n, by omega⟩ hq hu
    rwa [advance_lt hn] at moved
  · exact step_rnd_upc 63 hq hu
  · rcases hu with hu | hu | hu
    · exact step_engine_upc hu decodeU_acc hq ⟨_, rfl, rfl⟩
    · exact step_engine_upc hu decodeU_ser hq ⟨_, rfl, rfl⟩
    · exact step_engine_upc hu decodeU_hinit hq ⟨_, rfl, rfl⟩
  · have hs : s.ph = Phase.idle := by rw [State.ph, hu, U.ph_mk, Phase.idle]
    cases hd : decodeX w with
    | illegal c => exact ⟨_, step_illegal_idle hs hp hw hd, hu⟩
    | legal i =>
      have hi := decodeX_legal_isTransaction hd
      rw [step_legal_idle hs hp hw hd, ← hu]
      cases i with
      | nop | init | compress | digest | wrblk | rddig | rdstat => exact exec_transaction_upc hs hi
      | ldw | exp | wsinit | rnd | acc | ser | hinit => cases hi

end Sys2Proof.Machine
end

section
/-! PROOFS. The statements about the host's framing (45_host_framing.md): the length check (O59) and the hexadecimal form
(O60). The length check is described once by its two sides, the hexadecimal form by the digits of its first byte. -/

namespace Sys2Proof.Machine

/-! ### The length check (R171) -/

theorem checkLength_overflow {M : Message} (h : lengthLimit ≤ M.length) : checkLength M = .error .lengthOverflow :=
  if_pos h

theorem checkLength_ok {M : Message} (h : M.length < lengthLimit) : checkLength M = .ok () :=
  if_neg (Nat.not_le.mpr h)

/-- Settles O59: `sha256` and `driver` both make the length check first, and nothing after it fails. -/
theorem lengthOverflowExactlyFromTheLimit : Obligations.LengthOverflowExactlyFromTheLimit := by
  unfold Obligations.LengthOverflowExactlyFromTheLimit
  refine fun M => ⟨fun long => ?_, fun short => ?_⟩
  · rw [sha256, driver, checkLength_overflow long]
    exact ⟨rfl, rfl⟩
  · rw [sha256, driver, checkLength_ok short]
    exact ⟨⟨_, rfl⟩, _, rfl⟩

/-! ### The digits (R178) -/

theorem hexAlphabet_eq_toList : hexAlphabet = "0123456789abcdef".toList := by decide

/-- Every four-bit value has its digit in the alphabet, at the index of its number. -/
theorem getElem?_hexAlphabet (n : BitVec 4) : hexAlphabet[n.toNat]? = some (hexDigit n) := by
  revert n
  decide

theorem hexDigit_mem_hexAlphabet (n : BitVec 4) : hexDigit n ∈ hexAlphabet :=
  List.mem_of_getElem? (getElem?_hexAlphabet n)

/-- Bits 7:4 of a byte are its number divided by 16. -/
theorem toNat_high_nibble (b : Byte) : (b.extractLsb' 4 4).toNat = b.toNat / 16 := by
  rw [BitVec.extractLsb'_toNat, Nat.shiftRight_eq_div_pow]
  omega

/-- Bits 3:0 of a byte are the remainder. -/
theorem toNat_low_nibble (b : Byte) : (b.extractLsb' 0 4).toNat = b.toNat % 16 := by
  rw [BitVec.extractLsb'_toNat, Nat.shiftRight_zero]

/-! ### The hexadecimal form (R178) -/

theorem hex_cons (b : Byte) (D : List Byte) :
    hex (b :: D) = hexDigit (b.extractLsb' 4 4) :: hexDigit (b.extractLsb' 0 4) :: hex D :=
  List.flatMap_cons

theorem length_hex (D : List Byte) : (hex D).length = 2 * D.length := by
  induction D with
  | nil => rfl
  | cons b D ih =>
    simp only [hex_cons, List.length_cons, ih]
    omega

theorem mem_hexAlphabet_of_mem_hex {D : List Byte} {c : Char} (hc : c ∈ hex D) : c ∈ hexAlphabet := by
  obtain ⟨b, -, hb⟩ := List.mem_flatMap.mp hc
  rcases List.mem_pair.mp hb with rfl | rfl
  · exact hexDigit_mem_hexAlphabet _
  · exact hexDigit_mem_hexAlphabet _

/-- The two digits of byte `k` stand at places 2k and 2k + 1. -/
theorem getElem?_hex {D : List Byte} {k : Nat} (h : k < D.length) :
    (hex D)[2 * k]? = some (hexDigit (D[k].extractLsb' 4 4)) ∧
    (hex D)[2 * k + 1]? = some (hexDigit (D[k].extractLsb' 0 4)) := by
  induction D generalizing k with
  | nil => cases h
  | cons b D ih =>
    rw [hex_cons]
    cases k with
    | zero => exact ⟨rfl, rfl⟩
    | succ k => exact ih (Nat.lt_of_succ_lt_succ h)

/-- The hexadecimal form of a digest is that of the bytes `sha256` returns. -/
theorem hexDigest_eq_ok {M : Message} {cs : List Char} (h : hexDigest M = .ok cs) :
    ∃ D, sha256 M = .ok D ∧ cs = hex D.toList := by
  rw [hexDigest] at h
  cases hD : sha256 M with
  | error e =>
    rw [hD] at h
    cases h
  | ok D =>
    rw [hD] at h
    exact ⟨D, rfl, (Except.ok.inj h).symm⟩

/-- Settles O60: the digits of byte `k` are the alphabet's entries at its number's quotient and remainder by 16, and a
digest has 32 bytes. -/
theorem hexFormHasTwoDigitsAByte : Obligations.HexFormHasTwoDigitsAByte := by
  unfold Obligations.HexFormHasTwoDigitsAByte
  rw [← hexAlphabet_eq_toList]
  refine ⟨fun D => ⟨length_hex D, fun c => mem_hexAlphabet_of_mem_hex, fun k h => ?_⟩, fun M cs h => ?_⟩
  · rw [← toNat_high_nibble, ← toNat_low_nibble, getElem?_hexAlphabet, getElem?_hexAlphabet]
    exact getElem?_hex h
  · obtain ⟨D, hD, rfl⟩ := hexDigest_eq_ok h
    have digits : (hex D.toList).length = 64 := by rw [length_hex, Vector.length_toList]
    exact ⟨digits, D, hD, rfl⟩

end Sys2Proof.Machine
end

section
/-! PROOFS. The statement about SeqError (60_exceptions.md, R204; O40). What the fault writes is said once, and the three
causes are the refused sides of COMPRESS, DIGEST and RDDIG in an idle engine. -/

namespace Sys2Proof.Machine

/-- Taking SeqError, field by field: neither E_ADDR nor E_CMD moves. -/
theorem raise_seqError (s : State) :
    s.raise .seqError =
      { s with E_SEQ := true, port := s.port.tail, responses := s.responses ++ [⟨.err, 0⟩] } := by
  have notAddr : (EngineError.seqError == .addrError) = false := rfl
  have notCmd : (EngineError.seqError == .cmdError) = false := rfl
  simp only [State.raise, State.setSticky, State.respond, notAddr, notCmd, BEq.rfl, Bool.or_false, Bool.or_true]

/-- Settles O40: each transaction, refused in an idle engine, takes SeqError, and the fault writes E_SEQ and the host's
side alone. -/
theorem seqErrorWhereStateIsNotValid : Obligations.SeqErrorWhereStateIsNotValid := by
  unfold Obligations.SeqErrorWhereStateIsNotValid
  intro s hs
  rw [← raise_seqError]
  refine ⟨fun refused => ?_, execDigest_seqError hs, execRddig_seqError hs⟩
  have unsupported : ¬ (s.INITD = true ∧ s.BV = bvFull) := by
    rwa [not_and_or, Bool.not_eq_true]
  exact execCompress_seqError hs unsupported

end Sys2Proof.Machine
end

section
/-! PROOFS. The statements about the encodings (30_encoding.md) as a whole: decoding an encoded instruction (O9), encoding
a decoded one (O10), the classes of illegal words (O13) and a few words written out (O14). -/

namespace Sys2Proof

/-! ### The word of an instruction (R76, R77) -/

theorem decode_x_of_legal {w : BitVec 41} {i : Instr} (h : decodeX w = .legal i) : decode (.x w) = some i := by
  rw [decode, h]

theorem decode_u_of_op {u : BitVec 9} {i : Instr} (h : decodeU u = .op i) : decode (.u u) = some i := by
  rw [decode, h]

/-- The address of an encoded WRBLK is the byte address of its block word (R73). -/
theorem encode_wrblk (i : Fin 16) (v : Word) :
    encode (.wrblk i v) = .x (X.mk true (BitVec.ofNat 8 (Machine.blkAddr i)) v) := by
  have address : ∀ i : Fin 16,
      0b01#2 ++ (BitVec.ofFin i : BitVec 4) ++ 0b00#2 = BitVec.ofNat 8 (Machine.blkAddr i) := by decide
  rw [encode, address]

/-- The address of an encoded RDDIG is the byte address of its digest word (R73). -/
theorem encode_rddig (j : Fin 8) :
    encode (.rddig j) = .x (X.mk false (BitVec.ofNat 8 (Machine.digAddr j)) 0) := by
  have address : ∀ j : Fin 8,
      0b100#3 ++ (BitVec.ofFin j : BitVec 3) ++ 0b00#2 = BitVec.ofNat 8 (Machine.digAddr j) := by decide
  rw [encode, address]

theorem encode_ldw (t : Fin 16) : encode (.ldw t) = .u (Machine.upcAt Phase.sched t.val) := by
  revert t
  decide

theorem encode_exp (t : Fin 64) : encode (.exp t) = .u (Machine.upcAt Phase.sched t.val) := by
  revert t
  decide

theorem encode_rnd (t : Fin 64) : encode (.rnd t) = .u (Machine.upcAt Phase.rnd t.val) := by
  revert t
  decide

/-! ### Decoding an encoded instruction -/

/-- The address of digest word `j` has the digest pattern, and its index field is `j`. -/
theorem digAddr_fields (j : Fin 8) :
    BitVec.ofNat 8 (Machine.digAddr j) &&& 0xE3 = 0x80 ∧
      ((BitVec.ofNat 8 (Machine.digAddr j)).extractLsb' 2 3).toFin = j := by
  revert j
  decide

theorem decodeX_mk_digAddr (j : Fin 8) (d : Word) :
    decodeX (X.mk false (BitVec.ofNat 8 (Machine.digAddr j)) d) = .legal (.rddig j) := by
  obtain ⟨pattern, index⟩ := digAddr_fields j
  rw [decodeX_rddig (X.wr_mk ..) (by rwa [X.addr_mk]), X.addr_mk, index]

/-- Settles O9: each operand stands in a field of its own, so the decoder reads it back. -/
theorem decodeOfEncodeIsIdentity : Obligations.DecodeOfEncodeIsIdentity := by
  unfold Obligations.DecodeOfEncodeIsIdentity
  intro i hi
  cases i with
  | nop | init | compress | digest | rdstat => rfl
  | wrblk i v =>
    rw [encode_wrblk]
    exact decode_x_of_legal (Machine.decodeX_mk_blkAddr i v)
  | rddig j =>
    rw [encode_rddig]
    exact decode_x_of_legal (decodeX_mk_digAddr j 0)
  | ldw t =>
    rw [encode_ldw]
    exact decode_u_of_op (Machine.decodeU_ldw t)
  | exp t =>
    rw [encode_exp]
    exact decode_u_of_op (Machine.decodeU_exp (of_decide_eq_true hi))
  | rnd t =>
    rw [encode_rnd]
    exact decode_u_of_op (Machine.decodeU_rnd t)
  | wsinit => exact decode_u_of_op Machine.decodeU_wsinit
  | acc => exact decode_u_of_op Machine.decodeU_acc
  | ser => exact decode_u_of_op Machine.decodeU_ser
  | hinit => exact decode_u_of_op Machine.decodeU_hinit

/-! ### Encoding a decoded instruction -/

/-- A control word that holds a micro-operation is that micro-operation's word. -/
theorem encode_of_decodeU {u : BitVec 9} {i : Instr} (h : decodeU u = .op i) :
    i.wf = true ∧ i.isTransaction = false ∧ encode i = .u u := by
  rcases Machine.decodeU_op_cases h with ⟨t, rfl, rfl⟩ | ⟨t, rfl, ht, rfl⟩ | ⟨rfl, rfl⟩ | ⟨t, rfl, rfl⟩ | ⟨rfl, rfl⟩ |
    ⟨rfl, rfl⟩ | ⟨rfl, rfl⟩
  · exact ⟨rfl, rfl, encode_ldw t⟩
  · exact ⟨decide_eq_true ht, rfl, encode_exp t⟩
  · exact ⟨rfl, rfl, rfl⟩
  · exact ⟨rfl, rfl, encode_rnd t⟩
  · exact ⟨rfl, rfl, rfl⟩
  · exact ⟨rfl, rfl, rfl⟩
  · exact ⟨rfl, rfl, rfl⟩

/-- An address of the block pattern is put together again from its index field. -/
theorem X.blockAddr_of_index {a : BitVec 8} (h : a &&& 0xC3 = 0x40) :
    BitVec.ofNat 8 (Machine.blkAddr (a.extractLsb' 2 4).toFin) = a := by
  revert a
  decide

/-- An address of the digest pattern is put together again from its index field. -/
theorem X.digestAddr_of_index {a : BitVec 8} (h : a &&& 0xE3 = 0x80) :
    BitVec.ofNat 8 (Machine.digAddr (a.extractLsb' 2 3).toFin) = a := by
  revert a
  decide

theorem encode_of_decodeCommand {c : Word} {i : Instr} (h : decodeCommand c = .legal i) :
    encode i = .x (X.mk true Config.ctrlAddr c) := by
  rcases decodeCommand_legal_cases h with ⟨rfl, rfl⟩ | ⟨rfl, rfl⟩ | ⟨rfl, rfl⟩ | ⟨rfl, rfl⟩
  · rfl
  · rfl
  · rfl
  · rfl

/-- The mask of a read keeps WR and ADDR and drops the ignored WDATA bits (R70, R80). -/
theorem X.and_readMask (w : BitVec 41) : w &&& 0x1FF00000000 = X.mk (X.wr w) (X.addr w) 0 := by
  rw [show (0x1FF00000000 : BitVec 41) = X.mk true (BitVec.allOnes 8) 0 from rfl, X.and_mk_eq_mk, BitVec.and_allOnes]
  simp

/-- The word of what a transaction word decodes to: a write's is the word itself, a read's has WDATA = 0. -/
theorem encode_of_decodeX {w : BitVec 41} {i : Instr} (h : decodeX w = .legal i) :
    encode i = .x (if X.wr w then w else X.mk (X.wr w) (X.addr w) 0) := by
  rcases decodeX_legal_cases h with ⟨hw, ha, hc⟩ | ⟨hw, ha, rfl⟩ | ⟨hw, ha, rfl⟩ | ⟨hw, ha, rfl⟩
  · rw [encode_of_decodeCommand hc, if_pos hw, ← ha, ← hw, ← X.eq_mk]
  · rw [encode_wrblk, X.blockAddr_of_index ha, if_pos hw, ← hw, ← X.eq_mk]
  · rw [encode_rddig, X.digestAddr_of_index ha, hw, if_neg Bool.false_ne_true]
  · rw [hw, ha, if_neg Bool.false_ne_true, encode]

theorem wf_of_isTransaction {i : Instr} (h : i.isTransaction = true) : i.wf = true := by
  cases i with
  | nop | init | compress | digest | wrblk | rddig | rdstat => rfl
  | ldw | exp | wsinit | rnd | acc | ser | hinit => cases h

/-- Settles O10: each decoder is inverted by its cases, and the mask of a read drops the ignored bits. -/
theorem encodeOfDecodeIsCanonicalWord : Obligations.EncodeOfDecodeIsCanonicalWord := by
  unfold Obligations.EncodeOfDecodeIsCanonicalWord
  refine ⟨fun u i h => encode_of_decodeU h, fun w i h => ?_⟩
  have hi := Machine.decodeX_legal_isTransaction h
  refine ⟨wf_of_isTransaction hi, hi, ?_⟩
  rw [X.and_readMask]
  exact encode_of_decodeX h

/-! ### The fields of a word as parts of its number (R70) -/

theorem X.toNat_wr (w : BitVec 41) : (X.wr w).toNat = w.toNat / 2 ^ 40 := by
  have hw := w.isLt
  rw [X.wr, BitVec.getLsbD, Nat.testBit_eq_decide_div_mod_eq]
  rcases (show w.toNat / 2 ^ 40 = 0 ∨ w.toNat / 2 ^ 40 = 1 by omega) with h | h <;> rw [h] <;> rfl

theorem X.toNat_addr (w : BitVec 41) : (X.addr w).toNat = w.toNat / 2 ^ 32 % 2 ^ 8 := by
  rw [X.addr, BitVec.extractLsb'_toNat, Nat.shiftRight_eq_div_pow]

theorem X.toNat_wdata (w : BitVec 41) : (X.wdata w).toNat = w.toNat % 2 ^ 32 := by
  rw [X.wdata, BitVec.extractLsb'_toNat, Nat.shiftRight_zero]

/-! ### The decoder's tests as tests of numbers (R78) -/

theorem X.aligned_iff (a : BitVec 8) : a.extractLsb' 0 2 = 0 ↔ a.toNat % 4 = 0 := by
  revert a
  decide

/-- The ranges of class (b), for an aligned address. -/
theorem X.reservedAddr_iff {a : BitVec 8} (h : a.toNat % 4 = 0) :
    X.reservedAddr a = true ↔ (0x08 ≤ a.toNat ∧ a.toNat ≤ 0x3C) ∨ (0xA0 ≤ a.toNat ∧ a.toNat ≤ 0xFC) := by
  revert a
  decide

/-- The aligned addresses of the block buffer are those of the block pattern. -/
theorem X.blockAddr_iff_range (a : BitVec 8) :
    a &&& 0xC3 = 0x40 ↔ a.toNat % 4 = 0 ∧ 0x40 ≤ a.toNat ∧ a.toNat ≤ 0x7C := by
  revert a
  decide

/-- The aligned addresses of the digest buffer are those of the digest pattern. -/
theorem X.digestAddr_iff_range (a : BitVec 8) :
    a &&& 0xE3 = 0x80 ↔ a.toNat % 4 = 0 ∧ 0x80 ≤ a.toNat ∧ a.toNat ≤ 0x9C := by
  revert a
  decide

theorem decodeCommand_legal_of_lt {c : Word} (h : c.toNat < 4) : ∃ i, decodeCommand c = .legal i := by
  obtain ⟨n, hn, rfl⟩ : ∃ n < 4, c = BitVec.ofNat 32 n := ⟨c.toNat, h, by simp⟩
  match n with
  | 0 => exact ⟨.nop, rfl⟩
  | 1 => exact ⟨.init, rfl⟩
  | 2 => exact ⟨.compress, rfl⟩
  | 3 => exact ⟨.digest, rfl⟩

theorem decodeCommand_illegal_of_le {c : Word} (h : 4 ≤ c.toNat) :
    decodeCommand c = .illegal .reservedCommand := by
  have ne : ∀ d : Word, d.toNat < 4 → c ≠ d := by
    rintro d hd rfl
    omega
  rw [decodeCommand, if_neg (ne 0 (by decide)), if_neg (ne 1 (by decide)), if_neg (ne 2 (by decide)),
    if_neg (ne 3 (by decide))]

/-! ### The classes of illegal words (R78) -/

section Fields

variable {w : BitVec 41}

theorem decodeX_misaligned (h : (X.addr w).toNat % 4 ≠ 0) : decodeX w = .illegal .misaligned := by
  have unaligned : (X.addr w).extractLsb' 0 2 ≠ 0 := mt (X.aligned_iff _).mp h
  simp only [decodeX, unaligned, ne_eq, not_false_eq_true, if_true]

theorem decodeX_reserved (h : (X.addr w).toNat % 4 = 0)
    (hr : (0x08 ≤ (X.addr w).toNat ∧ (X.addr w).toNat ≤ 0x3C) ∨ (0xA0 ≤ (X.addr w).toNat ∧ (X.addr w).toNat ≤ 0xFC)) :
    decodeX w = .illegal .reserved := by
  have aligned := (X.aligned_iff _).mpr h
  have reserved := (X.reservedAddr_iff h).mpr hr
  simp only [decodeX, aligned, reserved, ne_eq, not_true_eq_false, if_false, if_true]

/-- At CTRL a write is a command, and a read is class (c). -/
theorem decodeX_ctrl (h : X.addr w = Config.ctrlAddr) :
    decodeX w = if X.wr w then decodeCommand (X.wdata w) else .illegal .readCtrl := by
  simp [decodeX, h, Config.ctrlAddr, X.reservedAddr]

/-- At STATUS a read is legal, and a write is class (d). -/
theorem decodeX_status (h : X.addr w = Config.statusAddr) :
    decodeX w = if X.wr w then .illegal .writeStatus else .legal .rdstat := by
  simp [decodeX, h, Config.ctrlAddr, Config.statusAddr, X.reservedAddr]

theorem decodeX_readBlock (hw : X.wr w = false) (ha : X.addr w &&& 0xC3 = 0x40) :
    decodeX w = .illegal .readBlock := by
  obtain ⟨halign, hres, hctrl, hstat, hlow⟩ := (X.blockAddr_iff _).mp ha
  simp only [decodeX, hw, halign, hres, hctrl, hstat, hlow, ne_eq, not_true_eq_false, Bool.false_eq_true, if_false,
    if_true]

theorem decodeX_writeDigest (hw : X.wr w = true) (ha : X.addr w &&& 0xE3 = 0x80) :
    decodeX w = .illegal .writeDigest := by
  obtain ⟨halign, hres, hctrl, hstat, hhigh⟩ := (X.digestAddr_iff _).mp ha
  simp only [decodeX, hw, halign, hres, hctrl, hstat, hhigh, ne_eq, not_true_eq_false, Bool.false_eq_true, if_false,
    if_true]

end Fields

/-- Settles O13: each clause fixes the fields that its branch of the decoder tests. -/
theorem illegalWordsClassified : Obligations.IllegalWordsClassified := by
  unfold Obligations.IllegalWordsClassified
  intro w
  have read : w.toNat / 2 ^ 40 = 0 → X.wr w = false := fun h => Bool.toNat_eq_zero.mp (X.toNat_wr w ▸ h)
  have write : w.toNat / 2 ^ 40 = 1 → X.wr w = true := fun h => Bool.toNat_eq_one.mp (X.toNat_wr w ▸ h)
  have address : ∀ a : BitVec 8, (X.addr w).toNat = a.toNat → X.addr w = a := fun _ => BitVec.eq_of_toNat_eq
  simp only [← X.toNat_addr, ← X.toNat_wdata]
  refine ⟨fun h => ⟨decodeX_misaligned h, rfl⟩, fun h hr => ⟨decodeX_reserved h hr, rfl⟩, fun hw ha => ⟨?_, rfl⟩,
    fun hw ha => ⟨?_, rfl⟩, fun hw h4 hlo hhi => ⟨?_, rfl⟩, fun hw h4 hlo hhi => ⟨?_, rfl⟩, fun hw ha hd => ⟨?_, rfl⟩, ?_⟩
  · rw [decodeX_ctrl (address _ ha), if_neg (by simp [read hw])]
  · rw [decodeX_status (address _ ha), if_pos (write hw)]
  · exact decodeX_readBlock (read hw) ((X.blockAddr_iff_range _).mpr ⟨h4, hlo, hhi⟩)
  · exact decodeX_writeDigest (write hw) ((X.digestAddr_iff_range _).mpr ⟨h4, hlo, hhi⟩)
  · rw [decodeX_ctrl (address _ ha), if_pos (write hw), decodeCommand_illegal_of_le hd]
  · rintro (⟨hw, ha, hd⟩ | ⟨hw, ha⟩ | ⟨hw, h4, hlo, hhi⟩ | ⟨hw, h4, hlo, hhi⟩)
    · rw [decodeX_ctrl (address _ ha), if_pos (write hw)]
      exact decodeCommand_legal_of_lt hd
    · exact ⟨_, decodeX_rdstat (read hw) (address _ ha)⟩
    · exact ⟨_, decodeX_wrblk (write hw) ((X.blockAddr_iff_range _).mpr ⟨h4, hlo, hhi⟩)⟩
    · exact ⟨_, decodeX_rddig (read hw) ((X.digestAddr_iff_range _).mpr ⟨h4, hlo, hhi⟩)⟩

/-- Settles O14: closed words, evaluated. -/
theorem writtenOutWordsDecode : Obligations.WrittenOutWordsDecode := by
  unfold Obligations.WrittenOutWordsDecode
  decide

end Sys2Proof
end

section
/-! PROOFS. The statements about the word operations as a system (40_word_ops.md): sums of many terms (O2), the
identities of R116 (O7), and the constants as roots of primes (10_state.md; O8). -/

namespace Sys2Proof.Machine

/-! ### Sums of many terms (R101) -/

/-- The sum of R101 is the library's sum in the ring of 32-bit words. -/
theorem sum32_eq_sum (xs : List Word) : sum32 xs = xs.sum := List.sum_eq_foldl.symm

theorem toNat_sum32 (xs : List Word) : (sum32 xs).toNat = (xs.map BitVec.toNat).sum % 2 ^ 32 := by
  rw [sum32_eq_sum]
  induction xs with
  | nil => rfl
  | cons x xs ih => rw [List.sum_cons, BitVec.toNat_add, ih, List.map_cons, List.sum_cons, Nat.add_mod_mod]

/-- Settles O2: addition of words is commutative and associative, and each partial sum is taken modulo 2^32. -/
theorem sumIsModularInAnyOrder : Obligations.SumIsModularInAnyOrder := by
  unfold Obligations.SumIsModularInAnyOrder
  refine fun xs ys => ⟨toNat_sum32 xs, fun h => ?_, ?_⟩
  · rw [sum32_eq_sum, sum32_eq_sum, h.sum_eq]
  · rw [sum32_eq_sum, sum32_eq_sum, sum32_eq_sum, List.sum_append, add32]

/-! ### Identities (R116) -/

theorem rotr_xor (x y : Word) {n : Nat} (hn : n < 32) : rotr (x ^^^ y) n = rotr x n ^^^ rotr y n := by
  apply BitVec.eq_of_getLsbD_eq
  intro i hi
  simp only [BitVec.getLsbD_xor, getLsbD_rotr _ hn hi]

theorem shr_xor (x y : Word) (n : Nat) : shr (x ^^^ y) n = shr x n ^^^ shr y n :=
  BitVec.ushiftRight_xor_distrib x y n

/-- "Choose" takes each bit from one side only, so the exclusive or is an or. -/
theorem Ch_eq_or (x y z : Word) : Ch x y z = ((x &&& y) ||| (~~~x &&& z)) := by
  apply BitVec.eq_of_getLsbD_eq
  intro i hi
  simp only [getLsbD_Ch x y z hi, BitVec.getLsbD_or, BitVec.getLsbD_and, BitVec.getLsbD_not, hi]
  cases x.getLsbD i <;> simp

/-- "Choose" flips z to y where x is 1. -/
theorem Ch_eq_xor (x y z : Word) : Ch x y z = (z ^^^ (x &&& (y ^^^ z))) := by
  apply BitVec.eq_of_getLsbD_eq
  intro i hi
  simp only [getLsbD_Ch x y z hi, BitVec.getLsbD_xor, BitVec.getLsbD_and]
  cases x.getLsbD i <;> simp [Bool.xor_left_comm (z.getLsbD i)]

theorem Maj_eq_or (x y z : Word) : Maj x y z = ((x &&& y) ||| (z &&& (x ||| y))) := by
  apply BitVec.eq_of_getLsbD_eq
  intro i _
  rw [getLsbD_Maj, BitVec.getLsbD_or, BitVec.getLsbD_and, BitVec.getLsbD_and, BitVec.getLsbD_or]
  generalize x.getLsbD i = a
  generalize y.getLsbD i = b
  generalize z.getLsbD i = c
  revert a b c
  decide

theorem bsig0_xor (x y : Word) : bsig0 (x ^^^ y) = bsig0 x ^^^ bsig0 y := by
  simp (disch := decide) only [bsig0, rotr_xor]
  ac_rfl

theorem bsig1_xor (x y : Word) : bsig1 (x ^^^ y) = bsig1 x ^^^ bsig1 y := by
  simp (disch := decide) only [bsig1, rotr_xor]
  ac_rfl

theorem ssig0_xor (x y : Word) : ssig0 (x ^^^ y) = ssig0 x ^^^ ssig0 y := by
  simp (disch := decide) only [ssig0, rotr_xor, shr_xor]
  ac_rfl

theorem ssig1_xor (x y : Word) : ssig1 (x ^^^ y) = ssig1 x ^^^ ssig1 y := by
  simp (disch := decide) only [ssig1, rotr_xor, shr_xor]
  ac_rfl

/-- The word of 2^32 - x is the additive inverse of x. -/
theorem add32_complement (x : Word) : add32 x (BitVec.ofNat 32 (2 ^ 32 - x.toNat)) = 0 := by
  apply BitVec.eq_of_toNat_eq
  have hx := x.isLt
  rw [toNat_add32, BitVec.toNat_ofNat, Nat.add_mod_mod, Nat.add_sub_cancel' (by omega)]
  rfl

/-- Settles O7: the identities of rotations, of the choice functions, of the sigma functions and of the sum. -/
theorem wordOperationIdentities : Obligations.WordOperationIdentities := by
  unfold Obligations.WordOperationIdentities
  intro x y z
  exact ⟨fun n _ hn => rotr_xor x y hn, Ch_eq_or x y z, Ch_eq_xor x y z, Maj_eq_or x y z, bsig0_xor x y, bsig1_xor x y,
    ssig0_xor x y, ssig1_xor x y, by decide, by decide, by decide, by decide, BitVec.add_comm x y,
    BitVec.add_assoc x y z, BitVec.add_zero x, add32_complement x⟩

/-! ### The first primes -/

/-- The primes below 19. -/
def trialPrimes : List Nat := [2, 3, 5, 7, 11, 13, 17]

/-- Trial division by the primes below 19, which decides primality below 19². -/
def isSmallPrime (n : Nat) : Bool := 2 ≤ n && trialPrimes.all fun q => n % q != 0 || n == q

theorem isSmallPrime_iff_forall {n : Nat} :
    isSmallPrime n = true ↔ 2 ≤ n ∧ ∀ q ∈ trialPrimes, q ∣ n → n = q := by
  simp only [isSmallPrime, Bool.and_eq_true, decide_eq_true_eq, List.all_eq_true, Bool.or_eq_true, bne_iff_ne, beq_iff_eq,
    Nat.dvd_iff_mod_eq_zero, ne_eq, ← imp_iff_not_or]

/-- A number from 2 to 18 has a divisor among the primes below 19. -/
theorem exists_trialPrime_dvd : ∀ m < 19, 2 ≤ m → ∃ q ∈ trialPrimes, q ∣ m := by decide

theorem isSmallPrime_iff {n : Nat} (h : n < 361) : isSmallPrime n = true ↔ n.Prime := by
  rw [isSmallPrime_iff_forall]
  constructor
  · rintro ⟨h2, trial⟩
    refine Nat.prime_def_le_sqrt.mpr ⟨h2, fun m hm hsqrt hdvd => ?_⟩
    have hmm : m * m ≤ n := Nat.le_sqrt.mp hsqrt
    obtain ⟨q, hq, hqm⟩ := exists_trialPrime_dvd m (by nlinarith) hm
    have hle : q ≤ m := Nat.le_of_dvd (by omega) hqm
    have hn : n = q := trial q hq (hqm.trans hdvd)
    nlinarith
  · refine fun hn => ⟨hn.two_le, fun q hq hdvd => ?_⟩
    have one : q ≠ 1 := by rintro rfl; revert hq; decide
    exact (((Nat.dvd_prime hn).mp hdvd).resolve_left one).symm

/-- The first 64 primes. -/
def firstPrimes : List Nat :=
  [2, 3, 5, 7, 11, 13, 17, 19, 23, 29, 31, 37, 41, 43, 47, 53, 59, 61, 67, 71, 73, 79, 83, 89, 97, 101, 103, 107, 109,
    113, 127, 131, 137, 139, 149, 151, 157, 163, 167, 173, 179, 181, 191, 193, 197, 199, 211, 223, 227, 229, 233, 239,
    241, 251, 257, 263, 269, 271, 277, 281, 283, 293, 307, 311]

/-- Prime number `t`, counted from 0. -/
def primeAt (t : Nat) : Nat := firstPrimes.getD t 0

theorem primeAt_isSmallPrime : ∀ t : Fin 64, primeAt t.val < 361 ∧ isSmallPrime (primeAt t.val) = true := by decide

/-- The table rises, in gaps of at most 14, and passes no prime over. -/
theorem primeAt_gap : ∀ t : Fin 63, primeAt t.val < primeAt (t.val + 1) ∧ primeAt (t.val + 1) ≤ primeAt t.val + 14 ∧
    ∀ d : Fin 14, 0 < d.val → primeAt t.val + d.val < primeAt (t.val + 1) →
      isSmallPrime (primeAt t.val + d.val) = false := by decide

theorem prime_primeAt {t : Nat} (ht : t < 64) : (primeAt t).Prime := by
  obtain ⟨small, prime⟩ := primeAt_isSmallPrime ⟨t, ht⟩
  exact (isSmallPrime_iff small).mp prime

theorem not_prime_between {t m : Nat} (ht : t < 63) (lower : primeAt t < m) (upper : m < primeAt (t + 1)) :
    ¬ m.Prime := by
  obtain ⟨-, near, gap⟩ := primeAt_gap ⟨t, ht⟩
  obtain ⟨small, -⟩ := primeAt_isSmallPrime ⟨t + 1, by omega⟩
  dsimp only at near gap small
  have composite := gap ⟨m - primeAt t, by omega⟩ (by dsimp only; omega) (by dsimp only; omega)
  rw [Nat.add_sub_cancel' lower.le] at composite
  rw [← isSmallPrime_iff (by omega), composite]
  exact Bool.false_ne_true

/-- From one prime to the next the number of smaller primes goes up by one. -/
theorem count_prime_next {p q : Nat} (hp : p.Prime) (hpq : p < q) (gap : ∀ m, p < m → m < q → ¬ m.Prime) :
    Nat.count Nat.Prime q = Nat.count Nat.Prime p + 1 := by
  suffices upTo : ∀ m, p + 1 ≤ m → m ≤ q → Nat.count Nat.Prime m = Nat.count Nat.Prime p + 1 from upTo q hpq le_rfl
  intro m hm
  induction m, hm using Nat.le_induction with
  | base => exact fun _ => by rw [Nat.count_succ, if_pos hp]
  | succ m hm ih => exact fun hq => by rw [Nat.count_succ, if_neg (gap m hm hq), ih (by omega), Nat.add_zero]

theorem count_prime_primeAt {t : Nat} (ht : t < 64) : Nat.count Nat.Prime (primeAt t) = t := by
  induction t with
  | zero => simp [primeAt, firstPrimes, Nat.count_succ, Nat.not_prime_zero, Nat.not_prime_one]
  | succ t ih =>
    obtain ⟨rises, -⟩ := primeAt_gap ⟨t, by omega⟩
    rw [count_prime_next (prime_primeAt (by omega)) rises fun m => not_prime_between (by omega), ih (by omega)]

/-! ### The constants (R25, R26) -/

/-- With an integer part below 7, round constant `t` is the fraction of the cube root of prime `t`, cut to 32 bits. -/
theorem K_isCubeRoot : ∀ t : Fin 64, ∃ r : Fin 7,
    (r.val * 2 ^ 32 + (K t).toNat) ^ 3 ≤ primeAt t.val * 2 ^ 96 ∧
    primeAt t.val * 2 ^ 96 < (r.val * 2 ^ 32 + (K t).toNat + 1) ^ 3 := by decide

/-- With an integer part below 5, initial value `i` is the fraction of the square root of prime `i`, cut to 32 bits. -/
theorem IV_isSquareRoot : ∀ i : Fin 8, ∃ r : Fin 5,
    (r.val * 2 ^ 32 + (IV.get i).toNat) ^ 2 ≤ primeAt i.val * 2 ^ 64 ∧
    primeAt i.val * 2 ^ 64 < (r.val * 2 ^ 32 + (IV.get i).toNat + 1) ^ 2 := by decide

theorem toNat_eq_mod (r : Nat) (x : Word) : x.toNat = (r * 2 ^ 32 + x.toNat) % 2 ^ 32 := by
  have hx := x.isLt
  omega

/-- Settles O8: the primes are those of the table, and each root is its integer part beside the constant. -/
theorem constantsAreRootsOfPrimes : Obligations.ConstantsAreRootsOfPrimes := by
  unfold Obligations.ConstantsAreRootsOfPrimes
  refine ⟨fun t => ?_, fun i => ?_⟩
  · obtain ⟨r, lower, upper⟩ := K_isCubeRoot t
    exact ⟨_, _, prime_primeAt t.isLt, count_prime_primeAt t.isLt, lower, upper, toNat_eq_mod r.val (K t)⟩
  · obtain ⟨r, lower, upper⟩ := IV_isSquareRoot i
    have hi : i.val < 64 := by omega
    exact ⟨_, _, prime_primeAt hi, count_prime_primeAt hi, lower, upper, toNat_eq_mod r.val (IV.get i)⟩

end Sys2Proof.Machine
end

section
/-! PROOFS. The statements about the step (00_scope.md R11, 20_memory.md, 44_host_commands.md): who moves and what the
move is (O15 to O19), the commands (O21 to O23), RDDIG (O25), LDW after WRBLK (O29), ACC (O34), and what every step keeps:
the fault flags (O37, O41), a legal micro-PC (O46) and H (O48). What a host's move can come to is said once. -/

namespace Sys2Proof.Machine

/-! ### Who moves (R11, R157) -/

theorem engineCan_eq_false_iff {s : State} : s.engineCan = false ↔ ∀ i, decodeU s.upc ≠ .op i := by
  rw [← Bool.not_eq_true, engineCan_iff, not_exists]

theorem hostMoves_iff {s : State} {r : Request} :
    s.hostMoves r = true ↔ s.accepts r.ev = true ∧ (r.wait = 0 ∨ ∀ i, decodeU s.upc ≠ .op i) := by
  rw [State.hostMoves, Bool.and_eq_true, Bool.or_eq_true, beq_iff_eq, Bool.not_eq_true', engineCan_eq_false_iff]

theorem accepts_txn_iff {s : State} {w : BitVec 41} :
    s.accepts (.txn w) = true ↔ s.ph = Phase.idle ∨ decodeX w = .legal .rdstat := by
  rw [State.accepts, Bool.or_eq_true, decide_eq_true_eq, decide_eq_true_eq]

/-- A word other than RDSTAT at the port keeps the host off while the engine runs (R157). -/
theorem undisturbed_of_held {s : State} {r : Request} {rest : List Request} {w : BitVec 41} (hp : s.port = r :: rest)
    (hw : r.ev = .txn w) (hd : decodeX w ≠ .legal .rdstat) (n : Nat) : s.undisturbed n := by
  intro r' hr
  obtain rfl : r = r' := by simpa [hp] using hr
  exact .inr ⟨w, hw, hd⟩

/-- Where the head of the port cannot be taken, or nothing stands there, the engine moves. -/
theorem step_eq_engineMove {s : State} (h : ∀ r rest, s.port = r :: rest → s.hostMoves r = false) :
    step s = engineMove s := by
  rw [step, agentStep]
  cases hp : s.port with
  | nil => rfl
  | cons r rest => simp [h r rest hp]

/-- Settles O15. -/
theorem engineStepRunsItsControlWord : Obligations.EngineStepRunsItsControlWord := by
  unfold Obligations.EngineStepRunsItsControlWord
  intro s i hi hq
  rw [step_engine hi hq, State.elapse_eq]

/-- Settles O16: the hypotheses are the two conditions of a host move. -/
theorem hostStepRunsItsTransaction : Obligations.HostStepRunsItsTransaction := by
  unfold Obligations.HostStepRunsItsTransaction
  intro s r rest w i hp hw hd haccept hturn
  have accepted : s.accepts r.ev = true := by
    rw [hw, accepts_txn_iff]
    exact haccept.imp_right fun e => by rw [hd, e]
  rw [step_host hp (hostMoves_iff.mpr ⟨accepted, hturn⟩), hw, hostMove, hd]

theorem exec_transaction_busy {s : State} {i : Instr} (hi : i.isTransaction = true) (hr : i ≠ .rdstat)
    (hb : s.ph ≠ Phase.idle) : exec i s = .next s := by
  cases i with
  | nop | init | compress | digest | wrblk | rddig =>
    simp only [exec, execNop, execInit, execCompress, execDigest, execWrblk, execRddig, whenIdle_busy _ hb]
  | rdstat => exact absurd rfl hr
  | ldw | exp | wsinit | rnd | acc | ser | hinit => cases hi

/-- Settles O17: the hold of the meaning, and the engine's step under a held word. -/
theorem transactionsAreHeldWhileBusy : Obligations.TransactionsAreHeldWhileBusy := by
  unfold Obligations.TransactionsAreHeldWhileBusy
  refine ⟨fun s i hi hr hb => exec_transaction_busy hi hr hb, fun s r rest w i hp hw hd hi => ?_⟩
  rw [step_engine hi (undisturbed_of_held hp hw hd 1), State.elapse_eq, hp, elapsedPort]

/-- Settles O18. -/
theorem idleEngineRests : Obligations.IdleEngineRests := by
  unfold Obligations.IdleEngineRests
  intro s hp hu
  have idle : decodeU s.upc = .idle := by rw [hu]; decide
  rw [step_eq_engineMove (by simp [hp]), engineMove, idle]

/-- The control words that no rule produces (R79). -/
theorem decodeU_unreachable_of_fields {u : BitVec 9}
    (h : U.ph u = 7 ∨ (U.t u ≠ 0 ∧ (U.ph u = 0 ∨ U.ph u = 2 ∨ U.ph u = 4 ∨ U.ph u = 5 ∨ U.ph u = 6))) :
    decodeU u = .unreachable := by
  revert u
  decide

/-- Settles O19: the engine's move is the stop, and a held word leaves the move to the engine. -/
theorem unreachableControlWordIsStuck : Obligations.UnreachableControlWordIsStuck := by
  unfold Obligations.UnreachableControlWordIsStuck
  intro s h
  have unreachable : decodeU s.upc = .unreachable := decodeU_unreachable_of_fields h
  have stuck : engineMove s = .fault .stuck := by rw [engineMove, unreachable]
  refine ⟨unreachable, fun hp => ?_, fun hb => ⟨bne_iff_ne.mpr hb, fun r rest w hp hw hd => ?_⟩⟩
  · rw [step_eq_engineMove (by simp [hp]), stuck]
  · refine (step_eq_engineMove fun r' rest' hp' => ?_).trans stuck
    obtain ⟨rfl, -⟩ := List.cons.inj (hp.symm.trans hp')
    have refused : s.accepts r.ev = false := by
      rw [← Bool.not_eq_true, hw, accepts_txn_iff]
      exact not_or.mpr ⟨hb, hd⟩
    rw [State.hostMoves, refused, Bool.false_and]

/-! ### The commands (R151, R152, R153) -/

/-- Settles O21. -/
theorem initStartsHashInitialisation : Obligations.InitStartsHashInitialisation := by
  unfold Obligations.InitStartsHashInitialisation
  exact ⟨rfl, fun s hs => execInit_idle hs⟩

/-- Settles O22. -/
theorem compressStartsTheSchedule : Obligations.CompressStartsTheSchedule := by
  unfold Obligations.CompressStartsTheSchedule
  exact ⟨rfl, fun s hs hi hb => execCompress_accepted hs ⟨hi, hb⟩⟩

/-- Settles O23. -/
theorem digestStartsTheSerializer : Obligations.DigestStartsTheSerializer := by
  unfold Obligations.DigestStartsTheSerializer
  exact ⟨rfl, fun s hs hi => execDigest_accepted hs hi⟩

/-! ### RDDIG (R155) -/

/-- The number of an RDDIG word is its fields: read and the byte address of digest word `j`. -/
theorem rddigNumber_eq_mk (j : Fin 8) :
    BitVec.ofNat 41 (0x08000000000 + j.val * 2 ^ 34) = X.mk false (BitVec.ofNat 8 (digAddr j)) 0 := by
  revert j
  decide

/-- Settles O25, by the two values of DV. -/
theorem rddigAnswersOneDigestWord : Obligations.RddigAnswersOneDigestWord := by
  unfold Obligations.RddigAnswersOneDigestWord
  intro s j
  refine ⟨by rw [rddigNumber_eq_mk, decodeX_mk_digAddr], fun hs => ⟨execRddig_accepted hs j, fun hd => ?_⟩⟩
  rw [← raise_seqError]
  exact execRddig_seqError hs j hd

/-! ### LDW after WRBLK (R154, R121) -/

/-- Settles O29: LDW reads the block word that WRBLK has written. -/
theorem writtenWordIsLoadedAsScheduleWord : Obligations.WrittenWordIsLoadedAsScheduleWord := by
  unfold Obligations.WrittenWordIsLoadedAsScheduleWord
  intro s i v hs
  refine ⟨_, _, execWrblk_idle hs i v, rfl, ?_⟩
  refine (vector_get_set_self _ ⟨i.val, by omega⟩ _).trans ?_
  exact (State.memRead_congr rfl rfl (blkAddr i)).trans (State.memRead_memWrite s (blkAddr i) v)

/-! ### ACC (R134) -/

theorem addWords_get (x y : Vector Word 8) (i : Fin 8) : (addWords x y).get i = add32 (x.get i) (y.get i) := by
  simp only [addWords, Vector.get_eq_getElem, Vector.getElem_ofFn]

/-- Settles O34. -/
theorem accAddsTheBlockResult : Obligations.AccAddsTheBlockResult := by
  unfold Obligations.AccAddsTheBlockResult
  refine ⟨decodeU_acc, fun s => ⟨_, rfl, fun i => ?_, rfl⟩⟩
  exact (congrArg BitVec.toNat (addWords_get s.H s.ws i)).trans (toNat_add32 _ _)

/-! ### What a micro-operation keeps (R200) -/

/-- A micro-operation completes and keeps the fault flags and the host's side. -/
theorem exec_micro_keeps {i : Instr} (hwf : i.wf = true) (hi : i.isTransaction = false) (s : State) :
    ∃ u, exec i s = .next u ∧ u.E_ADDR = s.E_ADDR ∧ u.E_CMD = s.E_CMD ∧ u.E_SEQ = s.E_SEQ ∧
      u.port = s.port ∧ u.responses = s.responses ∧ u.epoch = s.epoch := by
  cases i with
  | nop | init | compress | digest | wrblk | rddig | rdstat => cases hi
  | exp t => exact ⟨_, execExp_of_wf (of_decide_eq_true hwf) s, rfl, rfl, rfl, rfl, rfl, rfl⟩
  | ldw | wsinit | rnd | acc | ser | hinit => exact ⟨_, rfl, rfl, rfl, rfl, rfl, rfl, rfl⟩

/-- Settles O37. -/
theorem microOperationsRaiseNothing : Obligations.MicroOperationsRaiseNothing := by
  unfold Obligations.MicroOperationsRaiseNothing
  exact fun s i hwf hi => exec_micro_keeps hwf hi s

/-- The same for the micro-operation of a control word, in the engine's step. -/
theorem exec_op_keeps {u : BitVec 9} {i : Instr} {s t : State} (hi : decodeU u = .op i) (h : exec i s = .next t) :
    t.E_ADDR = s.E_ADDR ∧ t.E_CMD = s.E_CMD ∧ t.E_SEQ = s.E_SEQ ∧
      t.port = s.port ∧ t.responses = s.responses ∧ t.epoch = s.epoch := by
  obtain ⟨hwf, htx, -⟩ := encode_of_decodeU hi
  obtain ⟨t', ht', keeps⟩ := exec_micro_keeps hwf htx s
  obtain rfl := Host.Outcome.next.inj (h.symm.trans ht')
  exact keeps

/-! ### What a host's move can come to (R150 to R156, R208) -/

/-- The effects of a host's move other than reset, and of resting: nothing, a fault taken, an answer alone, or one of the
four transactions that write the engine. -/
inductive HostEffect (s : State) : State → Prop where
  | nothing : HostEffect s s
  | fault (e : EngineError) : HostEffect s (s.raise e)
  | answer (d : Word) : HostEffect s (s.respond .ok d)
  | init (hs : s.ph = Phase.idle) :
      HostEffect s ({ s with DV := false, upc := upcAt Phase.hinit 0 }.respond .ok 0)
  | compress (hs : s.ph = Phase.idle) (valid : s.INITD = true ∧ s.BV = bvFull) :
      HostEffect s ({ s with DV := false, upc := upcAt Phase.sched 0 }.respond .ok 0)
  | digest (hs : s.ph = Phase.idle) (valid : s.INITD = true) :
      HostEffect s ({ s with upc := upcAt Phase.ser 0 }.respond .ok 0)
  | wrblk (hs : s.ph = Phase.idle) (i : Fin 16) (v : Word) :
      HostEffect s ({ s.memWrite (blkAddr i) v with BV := setValid s.BV i }.respond .ok 0)

/-- A transaction has a next state, which is one of these effects. -/
theorem exec_transaction_effect {i : Instr} (hi : i.isTransaction = true) (s : State) :
    ∃ t, exec i s = .next t ∧ HostEffect s t := by
  by_cases hs : s.ph = Phase.idle
  · cases i with
    | nop => exact ⟨_, execNop_idle hs, .answer 0⟩
    | init => exact ⟨_, execInit_idle hs, .init hs⟩
    | compress =>
      by_cases h : s.INITD = true ∧ s.BV = bvFull
      · exact ⟨_, execCompress_accepted hs h, .compress hs h⟩
      · exact ⟨_, execCompress_seqError hs h, .fault _⟩
    | digest =>
      cases h : s.INITD with
      | true => exact ⟨_, execDigest_accepted hs h, .digest hs h⟩
      | false => exact ⟨_, execDigest_seqError hs h, .fault _⟩
    | wrblk k v => exact ⟨_, execWrblk_idle hs k v, .wrblk hs k v⟩
    | rddig j =>
      cases h : s.DV with
      | true => exact ⟨_, execRddig_accepted hs j h, .answer _⟩
      | false => exact ⟨_, execRddig_seqError hs j h, .fault _⟩
    | rdstat => exact ⟨_, rfl, .answer _⟩
    | ldw | exp | wsinit | rnd | acc | ser | hinit => cases hi
  · by_cases hr : i = .rdstat
    · subst hr
      exact ⟨_, rfl, .answer _⟩
    · exact ⟨s, exec_transaction_busy hi hr hs, .nothing⟩

/-- What a step has done: the engine its micro-operation, or the host a reset, or one of the effects above. -/
theorem step_effect {s t : State} (h : step s = .next t) :
    (∃ i, decodeU s.upc = .op i ∧ exec i s.elapse = .next t) ∨ (s.resetsNext ∧ t = s.assertReset) ∨ HostEffect s t := by
  rcases step_cases h with ⟨i, hi, -, hx⟩ | ⟨-, -, rfl⟩ | ⟨r, rest, hp, hm, he, rfl⟩ | ⟨r, rest, w, i, -, -, -, hd, hx⟩ |
    ⟨r, rest, w, c, -, -, -, -, rfl⟩
  · exact .inl ⟨i, hi, hx⟩
  · exact .inr (.inr .nothing)
  · exact .inr (.inl ⟨⟨r, rest, hp, hm, he⟩, rfl⟩)
  · obtain ⟨t', ht', effect⟩ := exec_transaction_effect (decodeX_legal_isTransaction hd) s
    obtain rfl := Host.Outcome.next.inj (hx.symm.trans ht')
    exact .inr (.inr effect)
  · exact .inr (.inr (.fault _))

theorem step_of_resetsNext {s : State} (h : s.resetsNext) : step s = .next s.assertReset := by
  obtain ⟨r, rest, hp, hm, he⟩ := h
  rw [step_host hp hm, he, hostMove]

/-! ### The fault flags (R31, R210) -/

/-- No effect of the host's clears a fault flag. -/
theorem HostEffect.flags_sticky {s t : State} (h : HostEffect s t) :
    (s.E_ADDR = true → t.E_ADDR = true) ∧ (s.E_CMD = true → t.E_CMD = true) ∧ (s.E_SEQ = true → t.E_SEQ = true) := by
  cases h with
  | fault e => exact ⟨Bool.or_inl, Bool.or_inl, Bool.or_inl⟩
  | nothing | answer | init | compress | digest | wrblk => exact ⟨id, id, id⟩

/-- Settles O41, by what a step can do. -/
theorem faultFlagsAreSticky : Obligations.FaultFlagsAreSticky := by
  unfold Obligations.FaultFlagsAreSticky
  refine fun s t h => ⟨fun noReset => ?_, fun reset => ?_⟩
  · rcases step_effect h with ⟨i, hi, hx⟩ | ⟨reset, -⟩ | effect
    · obtain ⟨ha, hc, hs, -⟩ := exec_op_keeps hi hx
      exact ⟨ha.trans, hc.trans, hs.trans⟩
    · exact absurd reset noReset
    · exact effect.flags_sticky
  · obtain rfl := Host.Outcome.next.inj ((step_of_resetsNext reset).symm.trans h)
    exact ⟨rfl, rfl, rfl⟩

/-! ### Reset (R230, R231, R233) -/

theorem statusWord_afterReset (epoch : Nat) (port : List Request) (responses : List Response) :
    (State.afterReset epoch port responses).statusWord = 0 := by
  have busy : (State.afterReset epoch port responses).busy = false := show (U.ph 0 != Phase.idle) = false by decide
  have bfull : (State.afterReset epoch port responses).bfull = false := rfl
  rw [State.statusWord, busy, bfull]
  simp only [State.afterReset]
  decide

/-- Settles O42: the event is taken, and the reset state's flags are all 0. -/
theorem resetGivesIdleWithFlagsClear : Obligations.ResetGivesIdleWithFlagsClear := by
  unfold Obligations.ResetGivesIdleWithFlagsClear
  refine ⟨fun s r rest hp he hturn => ?_, rfl, statusWord_afterReset ..⟩
  have accepted : s.accepts r.ev = true := by rw [he, State.accepts]
  have reset : s.resetsNext := ⟨r, rest, hp, hostMoves_iff.mpr ⟨accepted, hturn⟩, he⟩
  refine ⟨_, step_of_resetsNext reset, rfl, rfl, rfl, rfl, rfl, rfl, rfl, statusWord_afterReset .., ?_, rfl⟩
  rw [State.assertReset_port, hp, List.tail_cons]

/-! ### The micro-PC stays legal (R27, R39) -/

theorem legalUpc_of_op {u : BitVec 9} {i : Instr} (h : decodeU u = .op i) : legalUpc u :=
  fun e => nomatch h.symm.trans e

theorem HostEffect.legalUpc {s t : State} (h : HostEffect s t) (hs : legalUpc s.upc) : legalUpc t.upc := by
  cases h with
  | nothing | fault | answer | wrblk => exact hs
  | init => exact legalUpc_of_op decodeU_hinit
  | compress => exact legalUpc_of_op (decodeU_ldw 0)
  | digest => exact legalUpc_of_op decodeU_ser

theorem legalUpc_zero : legalUpc 0 := fun e => nomatch (show decodeU 0 = .idle by decide).symm.trans e

/-- Settles O46, by what a step can do. -/
theorem everyStepKeepsTheMicroPcLegal : Obligations.EveryStepKeepsTheMicroPcLegal := by
  unfold Obligations.EveryStepKeepsTheMicroPcLegal
  intro s t hs h
  rcases step_effect h with ⟨i, hi, hx⟩ | ⟨-, rfl⟩ | effect
  · obtain ⟨t', ht', -, legal⟩ := exec_micro_stepsLeft hi s.elapse
    obtain rfl := Host.Outcome.next.inj (hx.symm.trans ht')
    exact legal
  · exact legalUpc_zero
  · exact effect.legalUpc hs

/-! ### No stop (R79, R168) -/

/-- A legal micro-PC is enough for a next state: the host's moves and the micro-operations all complete. -/
theorem exists_step_of_legalUpc {s : State} (h : legalUpc s.upc) : ∃ t, step s = .next t := by
  have engine : ∃ t, engineMove s = .next t := by
    rw [engineMove]
    cases hd : decodeU s.upc with
    | op i =>
      obtain ⟨t, ht, -⟩ := exec_micro_stepsLeft hd s.elapse
      exact ⟨t, ht⟩
    | idle => exact ⟨s, rfl⟩
    | unreachable => exact absurd hd h
  have host : ∀ e, ∃ t, hostMove s e = .next t := by
    intro e
    cases e with
    | reset => exact ⟨_, rfl⟩
    | txn w =>
      rw [hostMove]
      cases hd : decodeX w with
      | legal i =>
        obtain ⟨t, ht, -⟩ := exec_transaction_effect (decodeX_legal_isTransaction hd) s
        exact ⟨t, ht⟩
      | illegal c => exact ⟨_, rfl⟩
  rw [step, agentStep]
  cases s.port with
  | nil => exact engine
  | cons r rest =>
    cases hm : s.hostMoves r with
    | true => simpa [hm] using host r.ev
    | false => simpa [hm] using engine

/-- Settles O47: of the invariants the first is enough. -/
theorem invariantStatesNeverStop : Obligations.InvariantStatesNeverStop := by
  unfold Obligations.InvariantStatesNeverStop
  exact fun s inv => exists_step_of_legalUpc inv.upc

/-! ### The hash state (R20, R29) -/

theorem HostEffect.H_eq {s t : State} (h : HostEffect s t) : t.H = s.H := by
  cases h with
  | nothing | fault | answer | init | compress | digest | wrblk => rfl

/-- A micro-operation other than HINIT and ACC leaves H alone. -/
theorem exec_op_H {u : BitVec 9} {i : Instr} {s t : State} (hi : decodeU u = .op i) (h : exec i s = .next t)
    (hinit : u ≠ upcAt Phase.hinit 0) (acc : u ≠ upcAt Phase.acc 0) : t.H = s.H := by
  rcases decodeU_op_cases hi with ⟨k, rfl, -⟩ | ⟨k, rfl, hk, -⟩ | ⟨rfl, -⟩ | ⟨k, rfl, -⟩ | ⟨-, rfl⟩ | ⟨rfl, -⟩ | ⟨-, rfl⟩
  · cases h; rfl
  · obtain rfl := Host.Outcome.next.inj ((execExp_of_wf hk s).symm.trans h)
    rfl
  · cases h; rfl
  · cases h; rfl
  · exact absurd rfl acc
  · cases h; rfl
  · exact absurd rfl hinit

/-- Settles O48, by what a step can do. -/
theorem onlyHinitAccAndResetWriteH : Obligations.OnlyHinitAccAndResetWriteH := by
  unfold Obligations.OnlyHinitAccAndResetWriteH
  intro s t h hinit acc noReset
  rcases step_effect h with ⟨i, hi, hx⟩ | ⟨reset, -⟩ | effect
  · exact exec_op_H (s := s.elapse) hi hx hinit acc
  · exact absurd reset noReset
  · exact effect.H_eq

end Sys2Proof.Machine
end

section
/-! PROOFS. The two indexed phases (41_schedule.md, 42_compression.md), one micro-operation at a time. The invariants and
the runs both build on these. -/

namespace Sys2Proof.Machine

/-! ### The micro-PC of an indexed phase (R165) -/

/-- The micro-PC of phase `p` at index `n`, and of the phase `q` after it once all 64 indices are done. -/
def phaseUpc (p q : BitVec 3) (n : Nat) : BitVec 9 := if n < 64 then upcAt p n else upcAt q 0

theorem phaseUpc_of_lt {n : Nat} (h : n < 64) (p q : BitVec 3) : phaseUpc p q n = upcAt p n := if_pos h

theorem phaseUpc_done (p q : BitVec 3) : phaseUpc p q 64 = upcAt q 0 := if_neg (by decide)

theorem advance_eq_phaseUpc (p q : BitVec 3) (t : Fin 64) : advance p t q = phaseUpc p q (t.val + 1) := by
  simp only [advance, phaseUpc, Nat.add_lt_add_iff_right (k := 1) (m := 63)]

theorem toNat_t_upcAt (p : BitVec 3) {n : Nat} (h : n < 64) : (U.t (upcAt p n)).toNat = n := by
  rw [U.t_upcAt, BitVec.toNat_ofNat, Nat.mod_eq_of_lt h]

/-! ### Phase 1: the schedule (R121, R122) -/

/-- The first `n` words of `W` are those of the schedule of `B`. -/
def schedPrefix (B : Block) (W : Vector Word 64) (n : Nat) : Prop :=
  ∀ k : Fin 64, k.val < n → W.get k = (sched B).get k

theorem schedPrefix_zero (B : Block) (W : Vector Word 64) : schedPrefix B W 0 :=
  fun k hk => absurd hk (Nat.not_lt_zero k.val)

theorem schedPrefix_set {B : Block} {W : Vector Word 64} {n : Nat} {v : Word} (hn : n < 64) (h : schedPrefix B W n)
    (hv : v = (sched B).get ⟨n, hn⟩) : schedPrefix B (W.set n v hn) (n + 1) := by
  intro k hk
  by_cases e : k.val = n
  · obtain rfl : k = ⟨n, hn⟩ := Fin.ext e
    rw [vector_get_set_self W ⟨n, hn⟩ v, hv]
  · rw [vector_get_set_ne W hn e, h k (by omega)]

theorem schedPrefix.eq_sched {B : Block} {W : Vector Word 64} (h : schedPrefix B W 64) : W = sched B :=
  vector_eq_of_get fun k => h k k.isLt

theorem exec_ldw_sched {n : Nat} (h16 : n < 16) {s : State} (h : schedPrefix s.block s.W n) :
    ∃ W, schedPrefix s.block W (n + 1) ∧
      exec (.ldw ⟨n, h16⟩) s = .next { s with W := W, upc := phaseUpc Phase.sched Phase.wsinit (n + 1) } := by
  have hn : n < 64 := by omega
  have word : s.memRead (blkAddr ⟨n, h16⟩) = (sched s.block).get ⟨n, hn⟩ := by
    rw [State.memRead_blkAddr, sched_load s.block ⟨n, hn⟩ h16]
  refine ⟨_, schedPrefix_set hn h word, ?_⟩
  rw [phaseUpc_of_lt (by omega)]
  rfl

theorem exec_exp_sched {n : Nat} (h16 : 16 ≤ n) (hn : n < 64) {s : State} (h : schedPrefix s.block s.W n) :
    ∃ W, schedPrefix s.block W (n + 1) ∧
      exec (.exp ⟨n, hn⟩) s = .next { s with W := W, upc := phaseUpc Phase.sched Phase.wsinit (n + 1) } := by
  have back : ∀ d, 0 < d → s.W.get (backIndex ⟨n, hn⟩ d) = (sched s.block).get (backIndex ⟨n, hn⟩ d) :=
    fun d hd => h _ (show n - d < n by omega)
  have word : expandWord (s.W.get (backIndex ⟨n, hn⟩ 16)) (s.W.get (backIndex ⟨n, hn⟩ 15))
      (s.W.get (backIndex ⟨n, hn⟩ 7)) (s.W.get (backIndex ⟨n, hn⟩ 2)) = (sched s.block).get ⟨n, hn⟩ := by
    rw [sched_expand s.block ⟨n, hn⟩ h16, back 16 (by decide), back 15 (by decide), back 7 (by decide),
      back 2 (by decide)]
  refine ⟨_, schedPrefix_set hn h word, ?_⟩
  rw [← advance_eq_phaseUpc Phase.sched Phase.wsinit ⟨n, hn⟩]
  exact execExp_of_wf h16 s

/-- The micro-operation at index `n` of phase 1, LDW or EXP, writes the next schedule word. -/
theorem exec_sched {n : Nat} (hn : n < 64) :
    ∃ i, decodeU (upcAt Phase.sched n) = .op i ∧ ∀ s : State, schedPrefix s.block s.W n →
      ∃ W, schedPrefix s.block W (n + 1) ∧
        exec i s = .next { s with W := W, upc := phaseUpc Phase.sched Phase.wsinit (n + 1) } := by
  by_cases h16 : n < 16
  · exact ⟨_, decodeU_ldw ⟨n, h16⟩, fun s => exec_ldw_sched h16⟩
  · have h16 : 16 ≤ n := by omega
    exact ⟨_, decodeU_exp (t := ⟨n, hn⟩) h16, fun s => exec_exp_sched h16 hn⟩

/-! ### Phase 3: the rounds (R133) -/

/-- RND at index `n` takes the working state from after `n` rounds to after `n + 1`. -/
theorem exec_rnd {n : Nat} (hn : n < 64) {s : State} (h : s.ws = rounds s.H s.W n) :
    exec (.rnd ⟨n, hn⟩) s =
      .next { s with ws := rounds s.H s.W (n + 1), upc := phaseUpc Phase.rnd Phase.acc (n + 1) } := by
  have index : Fin.ofNat 64 n = ⟨n, hn⟩ := Fin.ext (Nat.mod_eq_of_lt hn)
  rw [rounds, ← h, index, ← advance_eq_phaseUpc Phase.rnd Phase.acc ⟨n, hn⟩]
  rfl

end Sys2Proof.Machine
end

section
/-! PROOFS. The invariants (10_state.md, R39): they hold at reset (O43) and every step keeps them (O44). Also what follows
from them for RDDIG (O26) and for the status word (O28). The invariants fall into what is said of the buffers in every
phase (`Resting`), what is said of every phase of a COMPRESS (`Loaded`), and one clause for each phase. -/

namespace Sys2Proof.Machine

/-! ### The parts of the invariants -/

/-- (I6), (I7) and the form of memory: what the invariants say in every phase. -/
structure Resting (s : State) : Prop where
  blkWritten : ∀ i : Fin 16, s.BV.getLsbD i.val = true → ∀ k : Fin 4, s.mem.holds (blkAddr i + k.val)
  digest : s.DV = true → s.INITD = true ∧ (∀ k : Fin 32, s.mem.holds (Config.digBase + k.val)) ∧ s.dig = serialize s.H
  memory : s.mem.wf

/-- With (I2), (I3) and (I4): what the invariants say in the four phases of a COMPRESS, but for W and ws. -/
structure Loaded (s : State) : Prop extends Resting s where
  initd : s.INITD = true
  dvClear : s.DV = false
  valid : s.BV = bvFull

theorem Invariants.resting {s : State} (inv : Invariants s) : Resting s := ⟨inv.blkWritten, inv.digest, inv.memory⟩

theorem Invariants.loaded {s : State} (inv : Invariants s) (h : s.compressing) : Loaded s :=
  ⟨inv.resting, inv.initd (.inl h), inv.dvClear (.inl h), inv.bvFull h⟩

theorem ph_eq_of_upc {s : State} {p : BitVec 3} {n : Nat} (h : s.upc = upcAt p n) : s.ph = p := by
  rw [State.ph, h, U.ph_upcAt]

/-- A clause on another phase says nothing. -/
theorem clause_of_ph_ne {s : State} {p q : BitVec 3} {P : Prop} (hph : s.ph = p) (h : p ≠ q) : s.ph = q → P :=
  fun hq => absurd (hph.symm.trans hq) h

/-- Outside a COMPRESS nothing is said of W and ws. -/
theorem Resting.invariants {s : State} {p : BitVec 3} (h : Resting s) (legal : legalUpc s.upc) (hph : s.ph = p)
    (hp : ¬ (p = Phase.sched ∨ p = Phase.wsinit ∨ p = Phase.rnd ∨ p = Phase.acc))
    (initd : s.ph = Phase.ser → s.INITD = true) (dvClear : s.ph = Phase.hinit → s.DV = false) : Invariants s := by
  have hc : ¬ s.compressing := by rwa [State.compressing, hph]
  exact {
    upc := legal
    initd := fun h => initd (h.resolve_left hc)
    dvClear := fun h => dvClear (h.resolve_left hc)
    bvFull := fun h => absurd h hc
    blkWritten := h.blkWritten
    digest := h.digest
    schedSoFar := fun h => absurd (.inl h) hc
    schedDone := fun h => absurd (.inr h) hc
    roundsSoFar := fun h => absurd (.inr (.inr (.inl h))) hc
    roundsDone := fun h => absurd (.inr (.inr (.inr h))) hc
    memory := h.memory }

theorem Resting.invariants_idle {s : State} (h : Resting s) (hu : s.upc = upcAt Phase.idle 0) : Invariants s := by
  have hph := ph_eq_of_upc hu
  exact h.invariants (hu ▸ legalUpc_zero) hph (by decide) (clause_of_ph_ne hph (by decide))
    (clause_of_ph_ne hph (by decide))

theorem Resting.invariants_ser {s : State} (h : Resting s) (hu : s.upc = upcAt Phase.ser 0) (initd : s.INITD = true) :
    Invariants s := by
  have hph := ph_eq_of_upc hu
  exact h.invariants (hu ▸ legalUpc_of_op decodeU_ser) hph (by decide) (fun _ => initd)
    (clause_of_ph_ne hph (by decide))

theorem Resting.invariants_hinit {s : State} (h : Resting s) (hu : s.upc = upcAt Phase.hinit 0)
    (dvClear : s.DV = false) : Invariants s := by
  have hph := ph_eq_of_upc hu
  exact h.invariants (hu ▸ legalUpc_of_op decodeU_hinit) hph (by decide) (clause_of_ph_ne hph (by decide))
    (fun _ => dvClear)

/-- In a COMPRESS the clauses on W and ws are left. -/
theorem Loaded.invariants {s : State} (h : Loaded s) (legal : legalUpc s.upc)
    (schedSoFar : s.ph = Phase.sched → schedPrefix s.block s.W s.t.toNat)
    (schedDone : s.ph ≠ Phase.sched → s.W = sched s.block)
    (roundsSoFar : s.ph = Phase.rnd → s.ws = rounds s.H s.W s.t.toNat)
    (roundsDone : s.ph = Phase.acc → s.ws = rounds s.H s.W 64) : Invariants s where
  upc := legal
  initd := fun _ => h.initd
  dvClear := fun _ => h.dvClear
  bvFull := fun _ => h.valid
  blkWritten := h.blkWritten
  digest := h.digest
  schedSoFar := schedSoFar
  schedDone := fun hp => schedDone fun hs => absurd (hs ▸ hp) (by decide)
  roundsSoFar := roundsSoFar
  roundsDone := roundsDone
  memory := h.memory

theorem Loaded.invariants_sched {s : State} {n : Nat} (h : Loaded s) (hn : n < 64)
    (hu : s.upc = upcAt Phase.sched n) (hW : schedPrefix s.block s.W n) : Invariants s := by
  have hph := ph_eq_of_upc hu
  obtain ⟨i, hi, -⟩ := exec_sched hn
  refine h.invariants (hu ▸ legalUpc_of_op hi) (fun _ => ?_) (fun hne => absurd hph hne)
    (clause_of_ph_ne hph (by decide)) (clause_of_ph_ne hph (by decide))
  rwa [State.t, hu, toNat_t_upcAt _ hn]

theorem Loaded.invariants_wsinit {s : State} (h : Loaded s) (hu : s.upc = upcAt Phase.wsinit 0)
    (hW : s.W = sched s.block) : Invariants s := by
  have hph := ph_eq_of_upc hu
  exact h.invariants (hu ▸ legalUpc_of_op decodeU_wsinit) (clause_of_ph_ne hph (by decide)) (fun _ => hW)
    (clause_of_ph_ne hph (by decide)) (clause_of_ph_ne hph (by decide))

theorem Loaded.invariants_rnd {s : State} {n : Nat} (h : Loaded s) (hn : n < 64) (hu : s.upc = upcAt Phase.rnd n)
    (hW : s.W = sched s.block) (hws : s.ws = rounds s.H s.W n) : Invariants s := by
  have hph := ph_eq_of_upc hu
  refine h.invariants (hu ▸ legalUpc_of_op (decodeU_rnd ⟨n, hn⟩)) (clause_of_ph_ne hph (by decide)) (fun _ => hW)
    (fun _ => ?_) (clause_of_ph_ne hph (by decide))
  rwa [State.t, hu, toNat_t_upcAt _ hn]

theorem Loaded.invariants_acc {s : State} (h : Loaded s) (hu : s.upc = upcAt Phase.acc 0) (hW : s.W = sched s.block)
    (hws : s.ws = rounds s.H s.W 64) : Invariants s := by
  have hph := ph_eq_of_upc hu
  exact h.invariants (hu ▸ legalUpc_of_op decodeU_acc) (clause_of_ph_ne hph (by decide)) (fun _ => hW)
    (clause_of_ph_ne hph (by decide)) (fun _ => hws)

/-- What `Loaded` says does not depend on W, ws and the micro-PC. -/
theorem Loaded.of_scratch {s : State} (h : Loaded s) (W : Vector Word 64) (ws : Vector Word 8) (u : BitVec 9) :
    Loaded { s with W := W, ws := ws, upc := u } :=
  ⟨⟨h.blkWritten, h.digest, h.memory⟩, h.initd, h.dvClear, h.valid⟩

/-- The invariants do not depend on the host's side and on the fault flags. -/
theorem Invariants.of_hostSide {s : State} (inv : Invariants s) (ea ec es : Bool) (port : List Request)
    (responses : List Response) :
    Invariants { s with E_ADDR := ea, E_CMD := ec, E_SEQ := es, port := port, responses := responses } :=
  ⟨inv.upc, inv.initd, inv.dvClear, inv.bvFull, inv.blkWritten, inv.digest, inv.schedSoFar, inv.schedDone,
    inv.roundsSoFar, inv.roundsDone, inv.memory⟩

/-! ### Reset -/

theorem invariants_afterReset (epoch : Nat) (port : List Request) (responses : List Response) :
    Invariants (State.afterReset epoch port responses) := by
  have resting : Resting (State.afterReset epoch port responses) :=
    ⟨fun i h => absurd h (by simp [State.afterReset]), nofun, Memory.wf_nil⟩
  exact resting.invariants_idle rfl

/-- Settles O43. -/
theorem invariantsHoldAtReset : Obligations.InvariantsHoldAtReset := by
  unfold Obligations.InvariantsHoldAtReset
  exact invariants_afterReset 0 [] []

/-! ### Bytes that have been written -/

theorem Memory.holds_setWord_inside (m : Memory) (a : Nat) (v : Word) (k : Fin 4) :
    (m.setWord a v).holds (a + k.val) := by
  rw [Memory.holds, Memory.find_setWord_inside, Option.isSome_some]

/-- A written word takes no written byte away. -/
theorem Memory.holds_setWord {m : Memory} {x : Nat} (a : Nat) (v : Word) (h : m.holds x) : (m.setWord a v).holds x := by
  by_cases outside : x < a ∨ a + 4 ≤ x
  · rwa [Memory.holds, Memory.find_setWord_outside m v outside]
  · have inside := Memory.holds_setWord_inside m a v ⟨x - a, by omega⟩
    rwa [show a + (x - a) = x by omega] at inside

/-- Every byte of the digest buffer belongs to one of its words. -/
theorem digBase_add (k : Fin 32) :
    Config.digBase + k.val = digAddr ⟨k.val / 4, by omega⟩ + (⟨k.val % 4, by omega⟩ : Fin 4).val := by
  simp only [digAddr]
  omega

theorem Memory.holds_setDigest_inside (m : Memory) (Hv : Vector Word 8) (k : Fin 32) :
    (m.setDigest Hv).holds (Config.digBase + k.val) := by
  rw [digBase_add, Memory.holds, Memory.find_setDigest_inside, Option.isSome_some]

/-- The block buffer lies below the digest buffer. -/
theorem blkAddr_add_lt_digBase (i : Fin 16) (k : Fin 4) : blkAddr i + k.val < Config.digBase := by
  simp only [blkAddr, Config.blkBase, Config.digBase]
  omega

/-! ### The host's effects -/

/-- A write of a block word leaves the digest buffer alone. -/
theorem State.dig_memWrite_blkAddr (s : State) (i : Fin 16) (v : Word) : (s.memWrite (blkAddr i) v).dig = s.dig := by
  unfold State.dig
  congr 1
  funext k
  have below : blkAddr i + 3 < Config.digBase := blkAddr_add_lt_digBase i 3
  exact State.readByte_memWrite_outside s v (.inr (by omega))

theorem Resting.wrblk {s : State} (h : Resting s) (i : Fin 16) (v : Word) :
    Resting { s.memWrite (blkAddr i) v with BV := setValid s.BV i } where
  blkWritten := by
    intro j hj k
    by_cases e : j = i
    · subst e
      exact Memory.holds_setWord_inside s.mem (blkAddr j) v k
    · have bit : (setValid s.BV i).getLsbD j.val = true := hj
      rw [getLsbD_setValid s.BV i j.isLt, decide_eq_false (Fin.val_ne_of_ne e), Bool.false_or] at bit
      exact Memory.holds_setWord _ v (h.blkWritten j bit k)
  digest := by
    intro hd
    obtain ⟨initd, written, dig⟩ := h.digest hd
    exact ⟨initd, fun k => Memory.holds_setWord _ v (written k), (State.dig_memWrite_blkAddr s i v).trans dig⟩
  memory := Memory.setWord_wf v h.memory (blkAddr_in_buffers i)

/-- A legal micro-PC in phase 0 is IDLE's. -/
theorem Invariants.upc_of_idle {s : State} (inv : Invariants s) (hs : s.ph = Phase.idle) :
    s.upc = upcAt Phase.idle 0 := by
  have legal := inv.upc
  cases hd : decodeU s.upc with
  | op i => exact absurd hs (decodeU_op_ph hd)
  | idle => exact decodeU_idle hd
  | unreachable => exact absurd hd legal

theorem HostEffect.invariants {s t : State} (h : HostEffect s t) (inv : Invariants s) : Invariants t := by
  have resting := inv.resting
  cases h with
  | nothing => exact inv
  | fault e => exact inv.of_hostSide _ _ _ _ _
  | answer d => exact inv.of_hostSide _ _ _ _ _
  | init hs =>
    have started : Resting { s with DV := false, upc := upcAt Phase.hinit 0 } :=
      ⟨resting.blkWritten, nofun, resting.memory⟩
    exact (started.invariants_hinit rfl rfl).of_hostSide _ _ _ _ _
  | compress hs valid =>
    have started : Loaded { s with DV := false, upc := upcAt Phase.sched 0 } :=
      ⟨⟨resting.blkWritten, nofun, resting.memory⟩, valid.1, rfl, valid.2⟩
    exact (started.invariants_sched (by decide) rfl (schedPrefix_zero _ _)).of_hostSide _ _ _ _ _
  | digest hs valid =>
    have started : Resting { s with upc := upcAt Phase.ser 0 } :=
      ⟨resting.blkWritten, resting.digest, resting.memory⟩
    exact (started.invariants_ser rfl valid).of_hostSide _ _ _ _ _
  | wrblk hs i v => exact ((resting.wrblk i v).invariants_idle (inv.upc_of_idle hs)).of_hostSide _ _ _ _ _

/-! ### The micro-operations -/

section MicroOperation

variable {s : State} (inv : Invariants s)
include inv

theorem Invariants.exec_sched {n : Nat} (hn : n < 64) (hu : s.upc = upcAt Phase.sched n) {i : Instr}
    (hi : decodeU s.upc = .op i) : ∃ t, exec i s = .next t ∧ Invariants t := by
  have hph := ph_eq_of_upc hu
  have loaded := inv.loaded (.inl hph)
  have prior : schedPrefix s.block s.W n := by
    have soFar := inv.schedSoFar hph
    rwa [State.t, hu, toNat_t_upcAt _ hn] at soFar
  obtain ⟨i', hi', hx⟩ := Machine.exec_sched hn
  obtain rfl : i = i' := UDecoded.op.inj (hi.symm.trans (hu ▸ hi'))
  obtain ⟨W, hW, hx⟩ := hx s prior
  refine ⟨_, hx, ?_⟩
  have loaded' := loaded.of_scratch W s.ws (phaseUpc Phase.sched Phase.wsinit (n + 1))
  rcases Nat.lt_or_eq_of_le (Nat.succ_le_of_lt hn) with next | last
  · exact loaded'.invariants_sched next (phaseUpc_of_lt next _ _) hW
  · obtain rfl : n = 63 := Nat.succ.inj last
    exact loaded'.invariants_wsinit (phaseUpc_done Phase.sched Phase.wsinit) hW.eq_sched

theorem Invariants.exec_wsinit (hu : s.upc = upcAt Phase.wsinit 0) :
    ∃ t, exec .wsinit s = .next t ∧ Invariants t := by
  have hph := ph_eq_of_upc hu
  have loaded := inv.loaded (.inr (.inl hph))
  exact ⟨_, rfl, (loaded.of_scratch s.W s.H (upcAt Phase.rnd 0)).invariants_rnd (n := 0) (by decide) rfl
    (inv.schedDone (.inl hph)) rfl⟩

theorem Invariants.exec_rnd {n : Nat} (hn : n < 64) (hu : s.upc = upcAt Phase.rnd n) :
    ∃ t, exec (.rnd ⟨n, hn⟩) s = .next t ∧ Invariants t := by
  have hph := ph_eq_of_upc hu
  have loaded := inv.loaded (.inr (.inr (.inl hph)))
  have hW := inv.schedDone (.inr (.inl hph))
  have prior : s.ws = rounds s.H s.W n := by
    have soFar := inv.roundsSoFar hph
    rwa [State.t, hu, toNat_t_upcAt _ hn] at soFar
  refine ⟨_, Machine.exec_rnd hn prior, ?_⟩
  have loaded' := loaded.of_scratch s.W (rounds s.H s.W (n + 1)) (phaseUpc Phase.rnd Phase.acc (n + 1))
  rcases Nat.lt_or_eq_of_le (Nat.succ_le_of_lt hn) with next | last
  · exact loaded'.invariants_rnd next (phaseUpc_of_lt next _ _) hW rfl
  · obtain rfl : n = 63 := Nat.succ.inj last
    exact loaded'.invariants_acc (phaseUpc_done Phase.rnd Phase.acc) hW rfl

/-- ACC clears BV and rests with DV = 0, so H is free to change. -/
theorem Invariants.exec_acc (hu : s.upc = upcAt Phase.acc 0) : ∃ t, exec .acc s = .next t ∧ Invariants t := by
  have loaded := inv.loaded (.inr (.inr (.inr (ph_eq_of_upc hu))))
  refine ⟨_, rfl, Resting.invariants_idle ⟨fun i hb => ?_, fun hd => ?_, loaded.memory⟩ rfl⟩
  · exact absurd hb (by simp)
  · exact nomatch loaded.dvClear.symm.trans hd

/-- HINIT too changes H with DV = 0. -/
theorem Invariants.exec_hinit (hu : s.upc = upcAt Phase.hinit 0) : ∃ t, exec .hinit s = .next t ∧ Invariants t := by
  have dvClear := inv.dvClear (.inr (ph_eq_of_upc hu))
  exact ⟨_, rfl, Resting.invariants_idle ⟨inv.blkWritten, fun hd => (nomatch dvClear.symm.trans hd), inv.memory⟩ rfl⟩

theorem Invariants.exec_ser (hu : s.upc = upcAt Phase.ser 0) : ∃ t, exec .ser s = .next t ∧ Invariants t := by
  have initd := inv.initd (.inr (ph_eq_of_upc hu))
  obtain ⟨t, hx, hm, ht⟩ := execSer_writes s
  refine ⟨t, hx, Resting.invariants_idle ⟨fun i hb k => ?_, fun _ => ⟨?_, fun k => ?_, ?_⟩, ?_⟩ (by rw [ht]; rfl)⟩
  · rw [hm, Memory.holds, Memory.find_setDigest_outside s.mem s.H (.inl (blkAddr_add_lt_digBase i k))]
    rw [ht] at hb
    exact inv.blkWritten i hb k
  · rw [ht]
    exact initd
  · rw [hm]
    exact Memory.holds_setDigest_inside s.mem s.H k
  · rw [State.dig_setDigest hm, ht]
  · rw [hm]
    exact Memory.setDigest_wf s.H inv.memory

/-- Every micro-operation keeps the invariants. -/
theorem Invariants.exec_op {i : Instr} (hi : decodeU s.upc = .op i) : ∃ t, exec i s = .next t ∧ Invariants t := by
  rcases decodeU_op_cases hi with ⟨k, rfl, hu⟩ | ⟨k, rfl, -, hu⟩ | ⟨rfl, hu⟩ | ⟨k, rfl, hu⟩ | ⟨rfl, hu⟩ | ⟨rfl, hu⟩ |
    ⟨rfl, hu⟩
  · exact inv.exec_sched (by omega) hu hi
  · exact inv.exec_sched k.isLt hu hi
  · exact inv.exec_wsinit hu
  · exact inv.exec_rnd k.isLt hu
  · exact inv.exec_acc hu
  · exact inv.exec_ser hu
  · exact inv.exec_hinit hu

end MicroOperation

/-- The waiting time of an event at the port is the host's side. -/
theorem Invariants.elapse {s : State} (inv : Invariants s) : Invariants s.elapse :=
  inv.of_hostSide _ _ _ _ _

/-- Settles O44, by what a step can do. -/
theorem everyStepKeepsTheInvariants : Obligations.EveryStepKeepsTheInvariants := by
  unfold Obligations.EveryStepKeepsTheInvariants
  intro s t inv h
  rcases step_effect h with ⟨i, hi, hx⟩ | ⟨-, rfl⟩ | effect
  · obtain ⟨t', ht', inv'⟩ := inv.elapse.exec_op (i := i) hi
    obtain rfl := Host.Outcome.next.inj (hx.symm.trans ht')
    exact inv'
  · exact invariants_afterReset _ _ _
  · exact effect.invariants inv

/-! ### What the invariants give -/

/-- RDDIG's word is a word of the digest buffer. -/
theorem State.memRead_digAddr (s : State) (j : Fin 8) : s.memRead (digAddr j) = wordAt s.dig j := by
  simp only [State.memRead, wordAt, State.dig, Vector.get_eq_getElem, Vector.getElem_ofFn, digAddr]
  rfl

/-- Settles O26: by (I7) the digest buffer is the serialized H. -/
theorem rddigAnswersTheHashWord : Obligations.RddigAnswersTheHashWord := by
  unfold Obligations.RddigAnswersTheHashWord
  intro s j inv hs hd
  obtain ⟨-, -, dig⟩ := inv.digest hd
  refine (execRddig_accepted hs j hd).trans ?_
  rw [State.memRead_digAddr, dig, wordAt_serialize]
  rfl

theorem busy_of_compressing {s : State} (h : s.compressing) : s.busy = true := by
  rw [State.busy, bne_iff_ne]
  intro idle
  rw [State.compressing, idle] at h
  exact absurd h (by decide)

/-- Settles O28: in a COMPRESS the invariants fix every bit of the status word but the fault flags. -/
theorem statusReadsBusyWhileCompressing : Obligations.StatusReadsBusyWhileCompressing := by
  unfold Obligations.StatusReadsBusyWhileCompressing
  intro s inv hc ha hcmd hseq
  have loaded := inv.loaded hc
  have status : s.statusWord = 0xFFFF000B := by
    rw [State.statusWord, State.bfull, busy_of_compressing hc, loaded.initd, loaded.dvClear, loaded.valid, ha, hcmd, hseq]
    decide
  show Host.Outcome.next (s.respond .ok s.statusWord) = _
  rw [status]
  rfl

end Sys2Proof.Machine
end

section
/-! PROOFS. The statements about runs of the engine (41_schedule.md, 42_compression.md, 44_host_commands.md): the
schedule phase (O49), a whole COMPRESS (O50) and what it does not depend on (O53), the number of steps of every sequence
(O51), and the big-step view of the commands (O52). -/

namespace Sys2Proof.Machine

/-! ### Engine steps with the host kept off -/

/-- An engine step, written as the micro-operation on the state whose waiting time has passed. -/
theorem step_op {s : State} {u : BitVec 9} {i : Instr} (hu : s.upc = u) (hi : decodeU u = .op i)
    (hq : s.undisturbed 1) : step s = exec i { s with port := elapsedPort 1 s.port } := by
  rw [step_engine (hu ▸ hi) hq, State.elapse_eq]

theorem step_sched {s : State} {n : Nat} (hn : n < 64) (hu : s.upc = upcAt Phase.sched n) (hq : s.undisturbed 1)
    (h : schedPrefix s.block s.W n) :
    ∃ W, schedPrefix s.block W (n + 1) ∧ step s = .next { s with
      W := W
      upc := phaseUpc Phase.sched Phase.wsinit (n + 1)
      port := elapsedPort 1 s.port } := by
  obtain ⟨i, hi, hx⟩ := exec_sched hn
  rw [step_op hu hi hq]
  exact hx { s with port := elapsedPort 1 s.port } h

theorem step_rnd {s : State} {n : Nat} (hn : n < 64) (hu : s.upc = upcAt Phase.rnd n) (hq : s.undisturbed 1)
    (h : s.ws = rounds s.H s.W n) :
    step s = .next { s with
      ws := rounds s.H s.W (n + 1)
      upc := phaseUpc Phase.rnd Phase.acc (n + 1)
      port := elapsedPort 1 s.port } := by
  rw [step_op hu (decodeU_rnd ⟨n, hn⟩) hq]
  exact exec_rnd (s := { s with port := elapsedPort 1 s.port }) hn h

/-! ### The schedule phase (R123) -/

/-- After `n` steps of phase 1 the first `n` schedule words are written. -/
theorem steps_sched {s : State} (hu : s.upc = upcAt Phase.sched 0) {n : Nat} (hn : n ≤ 64) (hq : s.undisturbed n) :
    ∃ W, schedPrefix s.block W n ∧ steps n s = .next { s with
      W := W
      upc := phaseUpc Phase.sched Phase.wsinit n
      port := elapsedPort n s.port } := by
  induction n with
  | zero =>
    refine ⟨s.W, schedPrefix_zero s.block s.W, ?_⟩
    rw [phaseUpc_of_lt (by decide), ← hu, elapsedPort_zero, steps_zero]
  | succ n ih =>
    obtain ⟨W, hW, run⟩ := ih (by omega) (quietPort_mono hq (by omega))
    obtain ⟨W', hW', hx⟩ := step_sched (s := { s with
        W := W
        upc := phaseUpc Phase.sched Phase.wsinit n
        port := elapsedPort n s.port }) hn (phaseUpc_of_lt hn _ _)
      (quietPort_elapsed n (by rwa [Nat.add_comm])) hW
    refine ⟨W', hW', (steps_succ_last run hx).trans ?_⟩
    simp only [elapsedPort_elapsedPort]

/-- Settles O49. -/
theorem schedulePhaseComputesSched : Obligations.SchedulePhaseComputesSched := by
  unfold Obligations.SchedulePhaseComputesSched
  intro s hu hq
  obtain ⟨W, hW, run⟩ := steps_sched hu le_rfl hq
  rw [run, hW.eq_sched, phaseUpc_done]
  rfl

/-! ### The rounds and a whole COMPRESS (R135, R136) -/

/-- After `n` steps of phase 3, begun with ws = H, `n` rounds are done. -/
theorem steps_rnd {s : State} (hu : s.upc = upcAt Phase.rnd 0) (hws : s.ws = s.H) {n : Nat} (hn : n ≤ 64)
    (hq : s.undisturbed n) :
    steps n s = .next { s with
      ws := rounds s.H s.W n
      upc := phaseUpc Phase.rnd Phase.acc n
      port := elapsedPort n s.port } := by
  induction n with
  | zero =>
    have start : rounds s.H s.W 0 = s.ws := hws.symm
    rw [start, phaseUpc_of_lt (by decide), ← hu, elapsedPort_zero, steps_zero]
  | succ n ih =>
    have run := ih (by omega) (quietPort_mono hq (by omega))
    have hx := step_rnd (s := { s with
        ws := rounds s.H s.W n
        upc := phaseUpc Phase.rnd Phase.acc n
        port := elapsedPort n s.port }) hn (phaseUpc_of_lt hn _ _)
      (quietPort_elapsed n (by rwa [Nat.add_comm])) rfl
    refine (steps_succ_last run hx).trans ?_
    simp only [elapsedPort_elapsedPort]

/-- WSINIT, the 64 rounds and ACC: 66 steps from (2, 0) to IDLE (R166). -/
theorem steps_compression {s : State} (hu : s.upc = upcAt Phase.wsinit 0) (hq : s.undisturbed 66) :
    steps 66 s = .next { s with
      H := addWords s.H (rounds s.H s.W 64)
      ws := rounds s.H s.W 64
      BV := 0
      upc := upcAt Phase.idle 0
      port := elapsedPort 66 s.port } := by
  have begun : step s = .next { s with ws := s.H, upc := upcAt Phase.rnd 0, port := elapsedPort 1 s.port } :=
    step_op hu decodeU_wsinit (quietPort_mono hq (by decide))
  have quiet : quietPort (elapsedPort 1 s.port) 65 := quietPort_elapsed 1 hq
  have rounded := steps_rnd (s := { s with ws := s.H, upc := upcAt Phase.rnd 0, port := elapsedPort 1 s.port }) rfl rfl
    le_rfl (quietPort_mono quiet (by decide))
  have added := step_op (s := { s with
      ws := rounds s.H s.W 64
      upc := phaseUpc Phase.rnd Phase.acc 64
      port := elapsedPort 64 (elapsedPort 1 s.port) }) (phaseUpc_done Phase.rnd Phase.acc)
    decodeU_acc (quietPort_elapsed 64 quiet)
  rw [steps_succ 65 begun, steps_succ_last rounded added]
  simp only [elapsedPort_elapsedPort]

/-- The 130 steps of a COMPRESS. -/
theorem steps_compress {s : State} (hu : s.upc = upcAt Phase.sched 0) (hq : s.undisturbed 130) :
    steps 130 s = .next { s with
      H := compress s.H s.block
      W := sched s.block
      ws := rounds s.H (sched s.block) 64
      BV := 0
      upc := upcAt Phase.idle 0
      port := elapsedPort 130 s.port } := by
  have scheduled := schedulePhaseComputesSched s hu (quietPort_mono hq (by decide))
  have compressed := steps_compression (s := { s with
      W := sched s.block
      upc := U.mk 2 0
      port := elapsedPort 64 s.port }) rfl (quietPort_elapsed 64 hq)
  rw [show (130 : Nat) = 64 + 66 from rfl, steps_add 66 scheduled, compressed, compress]
  simp only [elapsedPort_elapsedPort]

/-- Settles O50. -/
theorem compressRunComputesCompress : Obligations.CompressRunComputesCompress := by
  unfold Obligations.CompressRunComputesCompress
  exact fun s hu hq => steps_compress hu hq

/-- The block buffer is its 64 bytes. -/
theorem State.block_eq_of_readByte {s t : State} (h : ∀ k, k < 64 → s.readByte (0x40 + k) = t.readByte (0x40 + k)) :
    s.block = t.block := by
  unfold State.block
  congr 1
  funext k
  exact h k k.isLt

/-- Settles O53: `compress` takes H and the block buffer only. -/
theorem compressResultIgnoresOldScratch : Obligations.CompressResultIgnoresOldScratch := by
  unfold Obligations.CompressResultIgnoresOldScratch
  intro s t hs ht hH hblk hqs hqt
  refine ⟨_, _, steps_compress hs hqs, steps_compress ht hqt, ?_, rfl, rfl⟩
  show compress s.H s.block = compress t.H t.block
  rw [hH, State.block_eq_of_readByte hblk]

/-! ### The number of steps of a sequence (R166) -/

theorem stepsLeft_sched {n : Nat} (h : n < 64) : stepsLeft (upcAt Phase.sched n) = 130 - n := by
  have all : ∀ t : Fin 64, stepsLeft (upcAt Phase.sched t.val) = 130 - t.val := by decide
  exact all ⟨n, h⟩

theorem stepsLeft_rnd {n : Nat} (h : n < 64) : stepsLeft (upcAt Phase.rnd n) = 65 - n := by
  rw [stepsLeft, decodeU_rnd ⟨n, h⟩]

/-- A legal control word with steps left holds a micro-operation. -/
theorem exists_op_of_stepsLeft {u : BitVec 9} (legal : legalUpc u) (h : stepsLeft u ≠ 0) : ∃ i, decodeU u = .op i := by
  cases hd : decodeU u with
  | op i => exact ⟨i, rfl⟩
  | idle => exact absurd (by rw [stepsLeft, hd]) h
  | unreachable => exact absurd hd legal

/-- With none left it is IDLE. -/
theorem upc_of_stepsLeft_eq_zero {u : BitVec 9} (legal : legalUpc u) (h : stepsLeft u = 0) : u = upcAt Phase.idle 0 := by
  cases hd : decodeU u with
  | op i => exact absurd h (stepsLeft_pos hd).ne'
  | idle => exact decodeU_idle hd
  | unreachable => exact absurd hd legal

/-- After `k` undisturbed steps of a sequence of at least that many, `k` fewer are left. -/
theorem steps_stepsLeft {s : State} (legal : legalUpc s.upc) {k : Nat} (hk : k ≤ stepsLeft s.upc)
    (hq : s.undisturbed k) :
    ∃ t, steps k s = .next t ∧ legalUpc t.upc ∧ stepsLeft t.upc + k = stepsLeft s.upc ∧
      t.port = elapsedPort k s.port := by
  induction k with
  | zero => exact ⟨s, steps_zero s, legal, rfl, (elapsedPort_zero s.port).symm⟩
  | succ k ih =>
    obtain ⟨t, run, legal', left, port⟩ := ih (by omega) (quietPort_mono hq (by omega))
    obtain ⟨i, hi⟩ := exists_op_of_stepsLeft legal' (by omega)
    have quiet : t.undisturbed 1 := by
      rw [State.undisturbed, port]
      exact quietPort_elapsed k (by rwa [Nat.add_comm])
    obtain ⟨u, hu, left', legal''⟩ := exec_micro_stepsLeft hi t.elapse
    obtain ⟨-, -, -, port', -⟩ := exec_op_keeps hi hu
    refine ⟨u, steps_succ_last run ((step_engine hi quiet).trans hu), legal'', by omega, ?_⟩
    rw [port', State.elapse_port, port, elapsedPort_elapsedPort]

/-- The legal busy control words, and their numbers of steps. -/
theorem stepsLeft_of_busy {u : BitVec 9} {n c : Nat}
    (h : (u = U.mk 1 (BitVec.ofNat 6 n) ∧ n < 64 ∧ c = 130 - n) ∨ (u = U.mk 2 0 ∧ c = 66) ∨
      (u = U.mk 3 (BitVec.ofNat 6 n) ∧ n < 64 ∧ c = 65 - n) ∨ ((u = U.mk 4 0 ∨ u = U.mk 5 0 ∨ u = U.mk 6 0) ∧ c = 1)) :
    legalUpc u ∧ stepsLeft u = c := by
  rcases h with ⟨rfl, hn, rfl⟩ | ⟨rfl, rfl⟩ | ⟨rfl, hn, rfl⟩ | ⟨rfl | rfl | rfl, rfl⟩
  · obtain ⟨i, hi, -⟩ := exec_sched hn
    exact ⟨legalUpc_of_op hi, stepsLeft_sched hn⟩
  · exact ⟨legalUpc_of_op decodeU_wsinit, rfl⟩
  · exact ⟨legalUpc_of_op (decodeU_rnd ⟨n, hn⟩), stepsLeft_rnd hn⟩
  · exact ⟨legalUpc_of_op decodeU_acc, rfl⟩
  · exact ⟨legalUpc_of_op decodeU_ser, rfl⟩
  · exact ⟨legalUpc_of_op decodeU_hinit, rfl⟩

/-- Settles O51: every undisturbed step takes one from the number of steps left, and only IDLE has none left. -/
theorem engineIsIdleAfterItsStepCount : Obligations.EngineIsIdleAfterItsStepCount := by
  unfold Obligations.EngineIsIdleAfterItsStepCount
  intro s n c hq h
  obtain ⟨legal, rfl⟩ := stepsLeft_of_busy h
  refine ⟨?_, fun k hk => ?_⟩
  · obtain ⟨t, run, legal', left, -⟩ := steps_stepsLeft legal le_rfl hq
    exact ⟨t, run, upc_of_stepsLeft_eq_zero legal' (by omega)⟩
  · obtain ⟨t, run, legal', left, -⟩ := steps_stepsLeft legal hk.le (quietPort_mono hq hk.le)
    obtain ⟨i, hi⟩ := exists_op_of_stepsLeft legal' (by omega)
    exact ⟨t, run, decodeU_op_ph hi⟩

/-! ### The big-step view (R167) -/

section BigStep

variable {s : State} {r : Request} {rest : List Request} {w : BitVec 41} (hu : s.upc = upcAt Phase.idle 0)
  (hp : s.port = r :: rest) (hw : r.ev = .txn w)
include hu hp hw

/-- The step that accepts a command of an idle engine: it is answered, and its first control word is loaded. -/
theorem step_command {i : Instr} {dv : Bool} {u : BitVec 9} (hd : decodeX w = .legal i)
    (hx : exec i s = .next ({ s with DV := dv, upc := u }.respond .ok 0)) :
    step s = .next { s with DV := dv, upc := u, port := rest, responses := s.responses ++ [⟨.ok, 0⟩] } := by
  rw [step_legal_idle (ph_eq_of_upc hu) hp hw hd, hx, State.respond, hp, List.tail_cons]

theorem steps_bigInit (hd : decodeX w = .legal .init) (hq : quietPort rest 1) :
    steps 2 s = .next { bigInit s with port := elapsedPort 1 rest } := by
  have accepted := step_command hu hp hw hd (execInit_idle (ph_eq_of_upc hu))
  have done := step_op (s := { s with
      DV := false
      upc := upcAt Phase.hinit 0
      port := rest
      responses := s.responses ++ [⟨.ok, 0⟩] }) rfl decodeU_hinit hq
  rw [exec, execHinit, ← hu] at done
  rw [steps_succ 1 accepted, steps_succ 0 done, steps_zero, bigInit, State.respond]

theorem steps_bigCompress (hd : decodeX w = .legal .compress) (valid : s.INITD = true ∧ s.BV = bvFull)
    (hq : quietPort rest 130) :
    steps 131 s = .next { bigCompress s with
      W := sched s.block
      ws := rounds s.H (sched s.block) 64
      port := elapsedPort 130 rest } := by
  have accepted := step_command hu hp hw hd (execCompress_accepted (ph_eq_of_upc hu) valid)
  have done := steps_compress (s := { s with
      DV := false
      upc := upcAt Phase.sched 0
      port := rest
      responses := s.responses ++ [⟨.ok, 0⟩] }) rfl hq
  rw [← hu] at done
  rw [steps_succ 130 accepted, done, bigCompress, if_pos valid, State.respond]
  rfl

theorem steps_bigDigest (hd : decodeX w = .legal .digest) (valid : s.INITD = true) (hq : quietPort rest 1) :
    steps 2 s = .next { bigDigest s with port := elapsedPort 1 rest } := by
  have accepted := step_command hu hp hw hd (execDigest_accepted (ph_eq_of_upc hu) valid)
  have done := step_op (s := { s with
      upc := upcAt Phase.ser 0
      port := rest
      responses := s.responses ++ [⟨.ok, 0⟩] }) rfl decodeU_ser hq
  rw [exec, execSer, ← hu] at done
  rw [steps_succ 1 accepted, steps_succ 0 done, steps_zero, bigDigest, if_pos valid, State.respond]

end BigStep

/-- Settles O52: each accepted command and its engine steps; a refused one is its one step. -/
theorem commandsMatchTheBigStepView : Obligations.CommandsMatchTheBigStepView := by
  unfold Obligations.CommandsMatchTheBigStepView
  intro s r rest hu hp
  have hs : s.ph = Phase.idle := ph_eq_of_upc hu
  refine ⟨fun hw hq => steps_bigInit hu hp hw rfl hq,
    fun hw valid hq => ⟨_, steps_bigCompress hu hp hw rfl valid hq, rfl⟩,
    fun hw (invalid : ¬ (s.INITD = true ∧ s.BV = bvFull)) => ?_,
    fun hw valid hq => steps_bigDigest hu hp hw rfl valid hq, fun hw invalid => ?_⟩
  · rw [steps_succ 0 ((step_legal_idle hs hp hw rfl).trans (execCompress_seqError hs invalid)), bigCompress,
      if_neg invalid, steps_zero]
  · rw [steps_succ 0 ((step_legal_idle hs hp hw rfl).trans (execDigest_seqError hs invalid)), bigDigest,
      if_neg (by simp [invalid]), steps_zero]

end Sys2Proof.Machine
end

section
/-! PROOFS. The statements about the padding (45_host_framing.md, R172, R173): its parts and its length (O57), and that
the length field and the length of the message give the message back (O58). -/

namespace Sys2Proof.Machine

/-! ### The parts of a padded message -/

/-- The zero bytes are fewer than a block, and with the other parts they fill whole blocks (R172). -/
theorem padZeros_spec (L : Nat) : padZeros L < 64 ∧ (L + padZeros L + 9) % 64 = 0 := by
  unfold padZeros
  omega

theorem length_be64 (n : Nat) : (be64 n).length = 8 := by
  simp [be64]

theorem length_pad (M : Message) : (pad M).length = M.length + padZeros M.length + 9 := by
  simp only [pad, List.length_append, List.length_singleton, List.length_replicate, length_be64]
  omega

/-- The padded message, its parts nested to the right. -/
theorem pad_eq (M : Message) :
    pad M = M ++ (0x80 :: (List.replicate (padZeros M.length) 0 ++ be64 (8 * M.length))) := by
  simp [pad]

theorem take_pad (M : Message) : (pad M).take M.length = M := by
  rw [pad_eq, List.take_left]

theorem getElem?_pad_length (M : Message) : (pad M)[M.length]? = some 0x80 := by
  rw [pad_eq, List.getElem?_append_right le_rfl, Nat.sub_self, List.getElem?_cons_zero]

/-- What stands `n` places after the byte 0x80. -/
theorem getElem?_pad_after (M : Message) (n : Nat) :
    (pad M)[M.length + 1 + n]? = (List.replicate (padZeros M.length) 0 ++ be64 (8 * M.length))[n]? := by
  rw [pad_eq, List.getElem?_append_right (by omega), show M.length + 1 + n - M.length = n + 1 by omega,
    List.getElem?_cons_succ]

theorem getElem?_pad_zero {M : Message} {n : Nat} (h : M.length < n) (h8 : n + 8 < (pad M).length) :
    (pad M)[n]? = some 0 := by
  rw [length_pad] at h8
  obtain ⟨m, rfl⟩ : ∃ m, n = M.length + 1 + m := ⟨n - M.length - 1, by omega⟩
  have inside : m < padZeros M.length := by omega
  rw [getElem?_pad_after, List.getElem?_append_left (by rwa [List.length_replicate]),
    List.getElem?_replicate_of_lt inside]

/-! ### The length field -/

/-- Byte `k` of the length field, the most significant first. -/
theorem getElem?_be64 (n : Nat) {k : Nat} (hk : k < 8) :
    (be64 n)[k]? = some ((BitVec.ofNat 64 n).extractLsb' (56 - 8 * k) 8) := by
  rw [be64, List.getElem?_map, List.getElem?_range hk, Option.map_some]

theorem getElem?_pad_field (M : Message) (k : Nat) :
    (pad M)[(pad M).length - 8 + k]? = (be64 (8 * M.length))[k]? := by
  have place : (pad M).length - 8 + k = M.length + 1 + (padZeros M.length + k) := by
    rw [length_pad]
    omega
  rw [place, getElem?_pad_after, List.getElem?_append_right (by rw [List.length_replicate]; omega),
    List.length_replicate, Nat.add_sub_cancel_left]

/-- The length field holds the bit length, which R171 keeps below 2^64. -/
theorem exists_lengthByte {M : Message} (hM : M.length < 2 ^ 61) {k : Nat} (hk : k < 8) :
    ∃ b, (pad M)[(pad M).length - 8 + k]? = some b ∧ b.toNat = 8 * M.length / 2 ^ (8 * (7 - k)) % 256 := by
  refine ⟨_, (getElem?_pad_field M k).trans (getElem?_be64 (8 * M.length) hk), ?_⟩
  rw [BitVec.extractLsb'_toNat, BitVec.toNat_ofNat, Nat.mod_eq_of_lt (a := 8 * M.length) (by omega),
    Nat.shiftRight_eq_div_pow, show 56 - 8 * k = 8 * (7 - k) by omega]

/-- Settles O57. -/
theorem paddingFillsWholeBlocks : Obligations.PaddingFillsWholeBlocks := by
  unfold Obligations.PaddingFillsWholeBlocks
  intro M hM
  obtain ⟨few, whole⟩ := padZeros_spec M.length
  have len := length_pad M
  refine ⟨take_pad M, getElem?_pad_length M, by omega, by omega, by omega, fun n => getElem?_pad_zero,
    fun k => exists_lengthByte hM, ?_⟩
  rw [blockCount]
  omega

/-! ### Injectivity (R173) -/

/-- A number of `n` bytes is known from its bytes. -/
theorem eq_of_bytes {n x y : Nat} (hx : x < 256 ^ n) (hy : y < 256 ^ n)
    (h : ∀ k < n, x / 256 ^ k % 256 = y / 256 ^ k % 256) : x = y := by
  induction n generalizing x y with
  | zero => omega
  | succ n ih =>
    have low : x % 256 = y % 256 := by simpa using h 0 (Nat.succ_pos n)
    have high : x / 256 = y / 256 := by
      refine ih (Nat.div_lt_of_lt_mul (by rwa [← Nat.pow_succ'])) (Nat.div_lt_of_lt_mul (by rwa [← Nat.pow_succ']))
        fun k hk => ?_
      rw [Nat.div_div_eq_div_mul, Nat.div_div_eq_div_mul, ← Nat.pow_succ']
      exact h (k + 1) (Nat.succ_lt_succ hk)
    omega

/-- Equal padded messages come from messages of equal length. -/
theorem length_eq_of_pad_eq {M N : Message} (hM : M.length < 2 ^ 61) (hN : N.length < 2 ^ 61) (h : pad M = pad N) :
    M.length = N.length := by
  have field : 8 * M.length = 8 * N.length := by
    refine eq_of_bytes (n := 8) (by omega) (by omega) fun k hk => ?_
    have scale : 2 ^ (8 * (7 - (7 - k))) = 256 ^ k := by
      rw [Nat.sub_sub_self (Nat.le_of_lt_succ hk)]
      exact Nat.pow_mul 2 8 k
    obtain ⟨b, hb, bval⟩ := exists_lengthByte hM (k := 7 - k) (by omega)
    obtain ⟨c, hc, cval⟩ := exists_lengthByte hN (k := 7 - k) (by omega)
    rw [h, hc] at hb
    rw [← scale, ← bval, ← cval, Option.some.inj hb]
  omega

/-- Settles O58: the length field gives the length, and the message is that long a front of its padding. -/
theorem paddingIsInjective : Obligations.PaddingIsInjective := by
  unfold Obligations.PaddingIsInjective
  intro M N hM hN h
  rw [← take_pad M, ← take_pad N, length_eq_of_pad_eq hM hN h, h]

end Sys2Proof.Machine
end

section
/-! PROOFS. The host's driver on the machine (45_host_framing.md, R175 to R177; O54). What a transaction, and a command with
its engine steps, serve of the port is said once for each (`Served`); the driver's parts compose. -/

namespace Sys2Proof.Machine

/-! ### Transactions at the port (R58, R157) -/

/-- The request presents transaction `i`, one that is held while the engine runs. -/
def Request.presents (r : Request) (i : Instr) : Prop :=
  ∃ w, r.ev = .txn w ∧ decodeX w = .legal i ∧ i ≠ .rdstat

/-- The port presents the transactions `is` in their order, after any waits. -/
abbrev presents (p : List Request) (is : List Instr) : Prop := List.Forall₂ Request.presents p is

theorem presents_elapsedPort {p : List Request} {is : List Instr} (n : Nat) (h : presents p is) :
    presents (elapsedPort n p) is := by
  cases h with
  | nil => exact .nil
  | cons hr hrest => exact .cons hr hrest

/-- Held transactions keep the host off for as long as the engine runs. -/
theorem quietPort_of_presents {p : List Request} {is : List Instr} (h : presents p is) (n : Nat) : quietPort p n := by
  intro r hr
  cases h with
  | nil => cases hr
  | cons hr' hrest =>
    obtain ⟨w, hw, hd, hi⟩ := hr'
    cases hr
    exact .inr ⟨w, hw, by rwa [hd, ne_eq, XDecoded.legal.injEq]⟩

/-- A transaction's line has a word, which decodes to it. -/
theorem exists_word {i : Instr} (h : i.isTransaction = true) :
    ∃ w, Line.word (.ins i) = some w ∧ decodeX w = .legal i := by
  have back := decodeOfEncodeIsIdentity i (wf_of_isTransaction h)
  rw [Line.word]
  cases he : encode i with
  | x w =>
    rw [he, decode] at back
    cases hd : decodeX w with
    | legal j =>
      rw [hd] at back
      exact ⟨w, rfl, by rw [hd, Option.some.inj back]⟩
    | illegal c =>
      rw [hd] at back
      cases back
  | u u =>
    rw [he, decode] at back
    cases hd : decodeU u with
    | op j =>
      rw [hd] at back
      obtain ⟨-, notTransaction, -⟩ := encode_of_decodeU hd
      rw [Option.some.inj back, h] at notTransaction
      cases notTransaction
    | idle | unreachable =>
      rw [hd] at back
      cases back

/-- Requests made from the words of transactions, each with its place in the program, present the transactions. -/
theorem presents_zipIdx (f : BitVec 41 × Nat → Request) (hf : ∀ w n, (f (w, n)).ev = .txn w) {is : List Instr}
    (h : ∀ i ∈ is, i.isTransaction = true ∧ i ≠ .rdstat) (k : Nat) :
    presents ((((is.map Line.ins).filterMap Line.word).zipIdx k).map f) is := by
  induction is generalizing k with
  | nil => exact .nil
  | cons i is ih =>
    obtain ⟨hi, hr⟩ := h i (List.mem_cons_self ..)
    obtain ⟨w, hw, hd⟩ := exists_word hi
    rw [List.map_cons, List.filterMap_cons_some hw, List.zipIdx_cons, List.map_cons]
    exact .cons ⟨w, hf w k, hd, hr⟩ (ih (fun j hj => h j (List.mem_cons_of_mem i hj)) (k + 1))

theorem presents_requestsOf (waits : List Nat) {is : List Instr}
    (h : ∀ i ∈ is, i.isTransaction = true ∧ i ≠ .rdstat) : presents (requestsOf waits (is.map .ins)) is :=
  presents_zipIdx _ (fun _ _ => rfl) h 0

/-! ### Serving transactions -/

/-- In `n` steps from `s` some transactions are answered OK with the data `ds`, and the engine is IDLE again in `t`, with
the transactions `rest` still at the port and no fault flag touched. -/
structure Served (n : Nat) (s : State) (ds : List Word) (rest : List Instr) (t : State) : Prop where
  run : steps n s = .next t
  upc : t.upc = upcAt Phase.idle 0
  port : presents t.port rest
  responses : t.responses = s.responses ++ ds.map (Response.mk .ok)
  addr : t.E_ADDR = s.E_ADDR
  cmd : t.E_CMD = s.E_CMD
  seq : t.E_SEQ = s.E_SEQ

theorem Served.trans {m n : Nat} {s t u : State} {ds ds' : List Word} {rest rest' : List Instr}
    (h : Served m s ds rest t) (h' : Served n t ds' rest' u) : Served (m + n) s (ds ++ ds') rest' u where
  run := (steps_add n h.run).trans h'.run
  upc := h'.upc
  port := h'.port
  responses := by rw [h'.responses, h.responses, List.map_append, List.append_assoc]
  addr := h'.addr.trans h.addr
  cmd := h'.cmd.trans h.cmd
  seq := h'.seq.trans h.seq

section Idle

variable {s : State} {rest : List Instr} (hu : s.upc = upcAt Phase.idle 0)
include hu

theorem served_nothing (hp : presents s.port rest) : Served 0 s [] rest s :=
  ⟨steps_zero s, hu, hp, (List.append_nil s.responses).symm, rfl, rfl, rfl⟩

/-- A transaction that writes at most memory and BV is answered in its one step. -/
theorem served_answer {i : Instr} {m : Memory} {bv : BitVec 16} {d : Word} (hp : presents s.port (i :: rest))
    (hx : exec i s = .next ({ s with mem := m, BV := bv }.respond .ok d)) :
    Served 1 s [d] rest ({ s with mem := m, BV := bv }.respond .ok d) := by
  obtain ⟨r, ps, ⟨w, hw, hd, -⟩, hrest, hport⟩ := List.forall₂_cons_right_iff.mp hp
  refine ⟨?_, hu, ?_, rfl, rfl, rfl, rfl⟩
  · rw [steps_succ 0 ((step_legal_idle (ph_eq_of_upc hu) hport hw hd).trans hx), steps_zero]
  · rw [State.respond_port, hport]
    exact hrest

theorem served_wrblk {i : Fin 16} {v : Word} (hp : presents s.port (.wrblk i v :: rest)) :
    ∃ t, Served 1 s [0] rest t ∧ t.H = s.H ∧ t.INITD = s.INITD ∧ t.mem = s.mem.setWord (blkAddr i) v ∧
      t.epoch = s.epoch ∧ t.BV = setValid s.BV i :=
  ⟨_, served_answer hu hp (execWrblk_idle (ph_eq_of_upc hu) i v), rfl, rfl, rfl, rfl, rfl⟩

theorem served_rddig {j : Fin 8} (hd : s.DV = true) (hp : presents s.port (.rddig j :: rest)) :
    ∃ t, Served 1 s [wordAt s.dig j] rest t ∧ t.DV = true ∧ t.dig = s.dig := by
  rw [← State.memRead_digAddr]
  exact ⟨_, served_answer (m := s.mem) (bv := s.BV) hu hp (execRddig_accepted (ph_eq_of_upc hu) j hd), hd, rfl⟩

/-- INIT and HINIT. -/
theorem served_init (hp : presents s.port (.init :: rest)) :
    ∃ t, Served 2 s [0] rest t ∧ t.H = IV ∧ t.INITD = true := by
  obtain ⟨r, ps, ⟨w, hw, hd, -⟩, hrest, hport⟩ := List.forall₂_cons_right_iff.mp hp
  have run := steps_bigInit hu hport hw hd (quietPort_of_presents hrest 1)
  exact ⟨_, ⟨run, hu, presents_elapsedPort 1 hrest, rfl, rfl, rfl, rfl⟩, rfl, rfl⟩

/-- COMPRESS on a full block and its 130 engine steps. -/
theorem served_compress (valid : s.INITD = true ∧ s.BV = bvFull) (hp : presents s.port (.compress :: rest)) :
    ∃ t, Served 131 s [0] rest t ∧ t.H = compress s.H s.block ∧ t.INITD = true := by
  obtain ⟨r, ps, ⟨w, hw, hd, -⟩, hrest, hport⟩ := List.forall₂_cons_right_iff.mp hp
  have run := steps_bigCompress hu hport hw hd valid (quietPort_of_presents hrest 130)
  rw [bigCompress, if_pos valid] at run
  exact ⟨_, ⟨run, hu, presents_elapsedPort 130 hrest, rfl, rfl, rfl, rfl⟩, rfl, valid.1⟩

/-- DIGEST and SER. -/
theorem served_digest (valid : s.INITD = true) (hp : presents s.port (.digest :: rest)) :
    ∃ t, Served 2 s [0] rest t ∧ t.DV = true ∧ t.dig = serialize s.H := by
  obtain ⟨r, ps, ⟨w, hw, hd, -⟩, hrest, hport⟩ := List.forall₂_cons_right_iff.mp hp
  have run := steps_bigDigest hu hport hw hd valid (quietPort_of_presents hrest 1)
  rw [bigDigest, if_pos valid] at run
  -- an arbitrary memory here, so that comparing states does not evaluate it
  generalize hm : s.mem.setDigest s.H = m at run
  exact ⟨_, ⟨run, hu, presents_elapsedPort 1 hrest, rfl, rfl, rfl, rfl⟩, rfl, State.dig_setDigest hm.symm⟩

end Idle

/-! ### A block (R174) -/

/-- Byte `k` of word `i` of a block is the block's byte at 4i + k. -/
theorem byteOf_blockWord (B : Block) (i : Fin 16) (k : Fin 4) :
    byteOf (blockWord B i) k = B.get ⟨4 * i.val + k.val, by omega⟩ := by
  obtain ⟨h0, h1, h2, h3⟩ := byteOf_be32 (B.get ⟨4 * i.val, by omega⟩) (B.get ⟨4 * i.val + 1, by omega⟩)
    (B.get ⟨4 * i.val + 2, by omega⟩) (B.get ⟨4 * i.val + 3, by omega⟩)
  match k with
  | 0 => exact h0
  | 1 => exact h1
  | 2 => exact h2
  | 3 => exact h3

/-- A block is its sixteen words. -/
theorem block_eq_of_words {B B' : Block} (h : ∀ i, blockWord B i = blockWord B' i) : B = B' := by
  apply vector_eq_of_get
  intro n
  obtain ⟨i, k, rfl⟩ : ∃ (i : Fin 16) (k : Fin 4), n = ⟨4 * i.val + k.val, by omega⟩ :=
    ⟨⟨n.val / 4, by omega⟩, ⟨n.val % 4, by omega⟩, Fin.ext (Nat.div_add_mod n.val 4).symm⟩
  rw [← byteOf_blockWord, ← byteOf_blockWord, h]

/-- Word `i` of `v` is in the block buffer, and BV says so. -/
def wordWritten (v : Vector Word 16) (s : State) (i : Fin 16) : Prop :=
  s.memRead (blkAddr i) = v.get i ∧ s.BV.getLsbD i.val = true

/-- WRBLK of word `i` writes that word and leaves the other written words written. -/
theorem wordWritten_wrblk {v : Vector Word 16} {s t : State} {i j : Fin 16}
    (hm : t.mem = s.mem.setWord (blkAddr i) (v.get i)) (he : t.epoch = s.epoch) (hb : t.BV = setValid s.BV i)
    (h : wordWritten v s j ∨ j = i) : wordWritten v t j := by
  have reads : t.memRead (blkAddr j) = (s.memWrite (blkAddr i) (v.get i)).memRead (blkAddr j) :=
    State.memRead_congr (s := s.memWrite (blkAddr i) (v.get i)) hm he _
  rw [wordWritten, reads, hb, getLsbD_setValid s.BV i j.isLt]
  by_cases e : j = i
  · subst e
    exact ⟨State.memRead_memWrite s _ _, by rw [decide_eq_true rfl, Bool.true_or]⟩
  · obtain ⟨word, bit⟩ := h.resolve_right e
    have apart : blkAddr j + 4 ≤ blkAddr i ∨ blkAddr i + 4 ≤ blkAddr j := by
      have := Fin.val_ne_of_ne e
      simp only [blkAddr]
      omega
    rw [State.memRead_memWrite_outside s _ apart, word, bit]
    exact ⟨rfl, Bool.or_true _⟩

/-- The writes of the words of `v` at the indices `l`. -/
def wrblks (v : Vector Word 16) (l : List (Fin 16)) : List Instr := l.map fun i => .wrblk i (v.get i)

theorem served_wrblks (v : Vector Word 16) (l : List (Fin 16)) {s : State} {rest : List Instr}
    (hu : s.upc = upcAt Phase.idle 0) (hp : presents s.port (wrblks v l ++ rest)) :
    ∃ t, Served l.length s (List.replicate l.length 0) rest t ∧ t.H = s.H ∧ t.INITD = s.INITD ∧
      ∀ j, wordWritten v s j ∨ j ∈ l → wordWritten v t j := by
  induction l generalizing s with
  | nil => exact ⟨s, served_nothing hu hp, rfl, rfl, fun j h => h.resolve_right List.not_mem_nil⟩
  | cons i l ih =>
    obtain ⟨t, served, hH, hI, hm, he, hb⟩ := served_wrblk hu hp
    obtain ⟨u, served', hH', hI', written⟩ := ih served.upc served.port
    refine ⟨u, ?_, hH'.trans hH, hI'.trans hI, fun j h => written j ?_⟩
    · rw [List.length_cons, Nat.add_comm, List.replicate_add]
      exact served.trans served'
    · rw [List.mem_cons, ← or_assoc] at h
      exact h.imp_left (wordWritten_wrblk hm he hb)

/-- The transactions of one block: its sixteen words and COMPRESS (R83). -/
def blockInstrs (B : Block) : List Instr := wrblks (blockWords B) (List.finRange 16) ++ [.compress]

theorem blockWords_get (B : Block) (i : Fin 16) : (blockWords B).get i = blockWord B i := by
  simp [blockWords, Vector.get_eq_getElem]

/-- With all sixteen words written, the block buffer is the block and BV is full. -/
theorem block_of_wordWritten {B : Block} {s : State} (h : ∀ i, wordWritten (blockWords B) s i) :
    s.block = B ∧ s.BV = bvFull := by
  constructor
  · refine block_eq_of_words fun i => ?_
    obtain ⟨word, -⟩ := h i
    rw [← State.memRead_blkAddr, word, blockWords_get]
  · apply BitVec.eq_of_getLsbD_eq
    intro n hn
    obtain ⟨-, bit⟩ := h ⟨n, hn⟩
    have full : ∀ k : Fin 16, bvFull.getLsbD k.val = true := by decide
    rw [bit, full ⟨n, hn⟩]

/-- One block is 17 transactions and 130 engine steps, whatever the block buffer and BV held. -/
theorem served_block (B : Block) {s : State} {rest : List Instr} (hu : s.upc = upcAt Phase.idle 0)
    (hI : s.INITD = true) (hp : presents s.port (blockInstrs B ++ rest)) :
    ∃ t, Served 147 s (List.replicate 17 0) rest t ∧ t.H = compress s.H B ∧ t.INITD = true := by
  rw [blockInstrs, List.append_assoc] at hp
  obtain ⟨t, served, hH, hI', written⟩ := served_wrblks _ _ hu hp
  obtain ⟨block, full⟩ := block_of_wordWritten fun i => written i (.inr (List.mem_finRange i))
  obtain ⟨u, served', hH', hI''⟩ := served_compress served.upc ⟨hI'.trans hI, full⟩ served.port
  exact ⟨u, served.trans served', by rw [hH', hH, block], hI''⟩

/-! ### The blocks of a message (R175, R176) -/

/-- The transactions of the first `n` blocks of `P`. -/
def blocksInstrs (P : List Byte) (n : Nat) : List Instr := (List.range n).flatMap fun k => blockInstrs (blockOf P k)

theorem blocksInstrs_succ (P : List Byte) (n : Nat) :
    blocksInstrs P (n + 1) = blocksInstrs P n ++ blockInstrs (blockOf P n) := by
  simp [blocksInstrs, List.range_succ]

/-- After `n` blocks H is the chain value. -/
theorem served_blocks (P : List Byte) (n : Nat) {s : State} {rest : List Instr} (hu : s.upc = upcAt Phase.idle 0)
    (hH : s.H = IV) (hI : s.INITD = true) (hp : presents s.port (blocksInstrs P n ++ rest)) :
    ∃ t, Served (147 * n) s (List.replicate (17 * n) 0) rest t ∧ t.H = chain P n ∧ t.INITD = true := by
  induction n generalizing rest with
  | zero => exact ⟨s, served_nothing hu hp, hH, hI⟩
  | succ n ih =>
    rw [blocksInstrs_succ, List.append_assoc] at hp
    obtain ⟨t, served, hH', hI'⟩ := ih hp
    obtain ⟨u, served', hH'', hI''⟩ := served_block _ served.upc hI' served.port
    refine ⟨u, ?_, by rw [hH'', hH', chain], hI''⟩
    rw [Nat.mul_succ, Nat.mul_succ, List.replicate_add]
    exact served.trans served'

/-! ### The digest (R155, R175) -/

theorem served_rddigs (l : List (Fin 8)) {s : State} {rest : List Instr} (hu : s.upc = upcAt Phase.idle 0)
    (hd : s.DV = true) (hp : presents s.port (l.map Instr.rddig ++ rest)) :
    ∃ t, Served l.length s (l.map (wordAt s.dig)) rest t := by
  induction l generalizing s with
  | nil => exact ⟨s, served_nothing hu hp⟩
  | cons j l ih =>
    obtain ⟨t, served, hd', dig⟩ := served_rddig hu hd hp
    obtain ⟨u, served'⟩ := ih served.upc hd' served.port
    rw [dig] at served'
    refine ⟨u, ?_⟩
    rw [List.length_cons, Nat.add_comm]
    exact served.trans served'

/-- The 32 bytes of `serialize`, four for each word. -/
theorem toList_serialize (Hv : Vector Word 8) :
    (serialize Hv).toList = (List.finRange 8).flatMap fun i =>
      [byteOf (Hv.get i) 0, byteOf (Hv.get i) 1, byteOf (Hv.get i) 2, byteOf (Hv.get i) 3] := by
  have byte : ∀ (i : Fin 8) (k : Fin 4), byteOf (Hv.get ⟨(i.val * 4 + k.val) / 4, by omega⟩)
      ⟨(i.val * 4 + k.val) % 4, by omega⟩ = byteOf (Hv.get i) k := by
    intro i k
    have word : (⟨(i.val * 4 + k.val) / 4, by omega⟩ : Fin 8) = i := Fin.ext (by dsimp only; omega)
    have place : (⟨(i.val * 4 + k.val) % 4, by omega⟩ : Fin 4) = k := Fin.ext (by dsimp only; omega)
    rw [word, place]
  rw [serialize, Vector.toList_ofFn, List.ofFn_mul (m := 8) (n := 4), List.ofFn_eq_map, List.flatMap_def]
  simp only [byte, List.ofFn_succ, List.ofFn_zero]
  rfl

/-- What the driver reads from its last eight answers, whatever came before them. -/
theorem digestOf_append (as : List Word) (Hv : Vector Word 8) :
    digestOf ((as ++ (List.finRange 8).map Hv.get).map (Response.mk .ok)) = (serialize Hv).toList := by
  have last : ((as ++ (List.finRange 8).map Hv.get).map (Response.mk .ok)).length - 8 =
      (as.map (Response.mk .ok)).length := by simp
  rw [digestOf, last, List.map_append, List.drop_left, toList_serialize]
  simp only [List.flatMap_map]

/-! ### The driver (R175, R177) -/

/-- The driver's transactions for a padded message. -/
def driverInstrs (P : List Byte) : List Instr :=
  .init :: (blocksInstrs P (blockCount P) ++ .digest :: (List.finRange 8).map Instr.rddig)

theorem driverLines_eq (P : List Byte) : driverLines P = (driverInstrs P).map .ins := by
  simp [driverLines, driverInstrs, blocksInstrs, blockInstrs, wrblks, hashBlockLines, blockLines, getDigestLines,
    List.map_flatMap, Function.comp_def]

/-- The driver presents transactions only, and never RDSTAT. -/
theorem driverInstrs_held (P : List Byte) : ∀ i ∈ driverInstrs P, i.isTransaction = true ∧ i ≠ .rdstat := by
  intro i hi
  simp only [driverInstrs, blocksInstrs, blockInstrs, wrblks, List.mem_cons, List.mem_append, List.mem_flatMap,
    List.mem_map, List.not_mem_nil, or_false] at hi
  rcases hi with rfl | ⟨k, -, ⟨j, -, rfl⟩ | rfl⟩ | rfl | ⟨j, -, rfl⟩
  · exact ⟨rfl, nofun⟩
  · exact ⟨rfl, nofun⟩
  · exact ⟨rfl, nofun⟩
  · exact ⟨rfl, nofun⟩
  · exact ⟨rfl, nofun⟩

/-- The whole driver, from any IDLE engine. -/
theorem served_driver (P : List Byte) {s : State} (hu : s.upc = upcAt Phase.idle 0)
    (hp : presents s.port (driverInstrs P)) :
    ∃ t, Served (2 + (147 * blockCount P + (2 + 8))) s
      ((0 :: (List.replicate (17 * blockCount P) 0 ++ [0])) ++ (List.finRange 8).map (chain P (blockCount P)).get) [] t := by
  obtain ⟨t, init, hH, hI⟩ := served_init hu hp
  obtain ⟨u, blocks, hH', hI'⟩ := served_blocks P (blockCount P) init.upc hH hI init.port
  obtain ⟨v, digest, hd, dig⟩ := served_digest blocks.upc hI' blocks.port
  obtain ⟨x, reads⟩ := served_rddigs (List.finRange 8) (rest := []) digest.upc hd (by simpa using digest.port)
  have words : (List.finRange 8).map (wordAt v.dig) = (List.finRange 8).map (chain P (blockCount P)).get := by
    rw [dig, hH']
    exact List.map_congr_left fun i _ => wordAt_serialize _ i
  rw [words] at reads
  refine ⟨x, ?_⟩
  have all := init.trans (blocks.trans (digest.trans reads))
  simpa using all

theorem driver_eq_ok {M : Message} {ls : List Line} (h : driver M = .ok ls) : ls = driverLines (pad M) := by
  rw [driver] at h
  cases hc : checkLength M with
  | error e => rw [hc] at h; cases h
  | ok a => rw [hc] at h; exact (Except.ok.inj h).symm

theorem sha256_eq_ok {M : Message} {D : Vector Byte 32} (h : sha256 M = .ok D) :
    D = serialize (chain (pad M) (blockCount (pad M))) := by
  rw [sha256] at h
  cases hc : checkLength M with
  | error e => rw [hc] at h; cases h
  | ok a => rw [hc] at h; exact (Except.ok.inj h).symm

/-- Settles O54: the driver's parts are served one after the other, and the last eight answers are the digest's words. -/
theorem driverReturnsTheDigest : Obligations.DriverReturnsTheDigest := by
  unfold Obligations.DriverReturnsTheDigest
  intro M ls D waits s hls hD hu hport n
  rw [driver_eq_ok hls, driverLines_eq] at hport
  obtain ⟨t, served⟩ := served_driver (pad M) hu (hport ▸ presents_requestsOf waits (driverInstrs_held (pad M)))
  refine ⟨t, _, ?_, ⟨List.forall₂_nil_right_iff.mp served.port, served.upc⟩, served.responses, ?_, ?_, ?_, served.addr,
    served.cmd, served.seq⟩
  · rw [← served.run]
    congr 1
    omega
  · simp only [List.length_map, List.length_append, List.length_cons, List.length_replicate, List.length_finRange,
      List.length_nil]
    omega
  · exact List.forall_mem_map.mpr fun d _ => rfl
  · rw [digestOf_append, sha256_eq_ok hD]

end Sys2Proof.Machine
end
